-- ==== Sys2Proof/Word.lean ====
section
/-! DEFINITION. The bit-vector types of the machine and the numbers of its vector registers. -/

namespace Sys2Proof

/-- A byte, the unit of the address space (20_memory.md R32, R34). -/
abbrev Byte := BitVec 8

/-- 32 bits: an instruction word (30_encoding.md R40) or one lane of a vector (00_scope.md, glossary "word"). -/
abbrev Word := BitVec 32

/-- The contents of one vector register (10_state.md R11). Bits are numbered from the least significant end (00_scope.md R3). -/
abbrev Vec128 := BitVec 128

/-- A vector register number, 0 to 127 (10_state.md R11). -/
abbrev VReg := Fin 128

end Sys2Proof
end

