-- ==== Sys2Proof/Config.lean ====
section
/-! DEFINITION. What is fixed for the machine: the parameters of 00_scope.md §4 that have a value, and the fixed fields of
the two formats. The parameters the spec leaves open (PCW, CodeRegion, end_pc) are arguments of the model and stand in State
(log 4, 5, 8). The spec leaves no result of an instruction open (93_implementation_defined.md A.1), so there is no free value. -/

namespace Sys2Proof.Config

/-- `ILEN` in bytes: every instruction is one 32-bit word, and `pc` advances by this much (R16, R40). -/
abbrev instrBytes : Nat := 4

/-- `NVR`: the vector registers of the one file both formats share (R11, R12; D1). -/
abbrev numVr : Nat := 128

/-- The registers a 5-bit field of format `VC` reaches: numbers below this one (R12, R43). -/
abbrev numVrVc : Nat := 32

/-- `OPCD` of format `VC` (R41). -/
def opcdVc : BitVec 6 := 4#6

/-- `XO` of `vcmpequw`, bits 22 to 31 (R41). -/
def xoVc : BitVec 10 := 134#10

/-- `OPCD` of format `VX128_R`: 6, not the 4 of one table cell of the source (R42; 90_conflicts.md C1). -/
def opcdVx128 : BitVec 6 := 6#6

/-- `XO` of `vcmpequw128`, bits 22 to 25: the field value 8, which stands in place as 0x200 (R42; 90_conflicts.md C2). -/
def xoVx128 : BitVec 4 := 8#4

end Sys2Proof.Config
end

