-- ==== Sys2Proof/Machine/State.lean ====
section
/-! DEFINITION. The state of the machine, the reasons a step can stop, and the state after reset. -/

namespace Sys2Proof.Machine

/-- A condition-register field: the four bits the source names, in its order (00_scope.md R5, 10_state.md R14). -/
structure CrField where
  lt : Bool
  gt : Bool
  eq : Bool
  so : Bool
deriving DecidableEq, Repr

/-- The program counter: a byte address of `PCW` bits. `PCW` is an argument of the model, 32 or 64 (10_state.md R16; D2), and
is the constructor here, so an address never exceeds the width it is given with (log 4). -/
inductive Pc where
  | w32 (addr : BitVec 32)
  | w64 (addr : BitVec 64)
deriving DecidableEq, Repr

/-- The bytes of the one address space (20_memory.md R34): pairs of address and byte, addresses strictly rising. An address
not listed has no value (log 5). -/
abbrev Memory := List Host.Cell

/-- A run of `size` byte addresses from `base` that holds program text: a piece of `CodeRegion` (20_memory.md R33, R34). -/
structure CodeRange where
  base : Nat
  size : Nat
deriving DecidableEq, Repr

/-- Registers of a file whose count and width the source does not give: pairs of register number and contents, a register
not listed holding 0 (log 9). -/
abbrev RegFile := List (Nat × Nat)

/-- XER: the three bits the source names, and the rest of it (10_state.md R17; log 9). -/
structure Xer where
  ca : Bool
  ov : Bool
  so : Bool
  rest : Nat
deriving DecidableEq, Repr

/-- What the spec names and says the instructions leave alone, held as opaque data that every step carries through
unchanged (10_state.md R10, R15, R17, R18, R19; log 9). -/
structure OtherState where
  /-- Condition-register fields other than CR6, by field number (R15). -/
  crFields : RegFile
  /-- VSCR (R17). -/
  vscr : Nat
  /-- XER (R17). -/
  xer : Xer
  /-- General registers (R18). -/
  gpr : RegFile
  /-- Floating-point registers (R18). -/
  fpr : RegFile
deriving DecidableEq, Repr

/-- The machine (10_state.md R10), with the arguments of the model that are fixed for a run (00_scope.md §4). -/
structure State where
  /-- The vector register file, one for both formats (R11, R12). -/
  vr : Vector Vec128 Config.numVr
  /-- Condition-register field 6 (R14). -/
  cr6 : CrField
  /-- The address of the instruction being executed (R16). -/
  pc : Pc
  /-- The bytes of the address space (R32, R34). -/
  mem : Memory
  /-- `CodeRegion`, an argument of the model (R33, R34; D11). -/
  code : List CodeRange
  /-- `end_pc`, an argument of the model; none while the host has named no end (70_reset_and_hazards.md R95; D14; log 8). -/
  endPc : Option Nat
  /-- Everything else the spec names (R15, R17, R18). -/
  other : OtherState
deriving DecidableEq, Repr

/-- Why the machine stops without having met anything it has no meaning for. The hardware itself reports no fault
(60_exceptions.md R80, R83, R84). -/
inductive Fault where
  /-- The run has ended: `pc` equals `end_pc` and no step is taken (R88 check 0, R95). Raised by `step` alone. Safe: nothing is
  claimed of what the chip does from there on. It is not a hardware exception (log 8). -/
  | runEnded
deriving DecidableEq, Repr

/-- Why a step has no meaning: `refuse(reason)` of the spec (60_exceptions.md R82, R88). -/
inductive Refusal where
  /-- An instruction without a meaning yet. Raised by an arm of `exec` that has none; every arm has one. Safe. -/
  | notModelled (mnemonic : String)
  /-- `fetch_not_admitted`: `pc` is no multiple of 4, or not all of the four bytes hold program text (20_memory.md R33). Raised
  by `step`. Safe: the chip may have a step here that the model lacks. -/
  | fetchNotAdmitted
  /-- `not_in_scope`: the word is none of the four instructions (R82). Raised by `step`. Safe: it may be an instruction of
  the chip. -/
  | notInScope
  /-- `pc_overflow`: `pc + 4` does not fit in `PCW` bits (10_state.md R16). Raised by every instruction. Safe: no wrapped value
  is chosen. -/
  | pcOverflow
deriving DecidableEq, Repr

/-- The machine before a host has supplied a launch state. The spec has no reset and gives no reset value (R21, R90); each
value here is one the log names (log 1, 2, 3, 7, 8, 9), and no statement about an instruction rests on it. -/
def State.reset : State where
  vr := Vector.replicate Config.numVr 0#128
  cr6 := { lt := false, gt := false, eq := false, so := false }
  pc := .w32 0#32
  mem := []
  code := []
  endPc := none
  other :=
    { crFields := [], vscr := 0, xer := { ca := false, ov := false, so := false, rest := 0 }, gpr := [], fpr := [] }

end Sys2Proof.Machine
end

