-- ==== Sys2Proof/Machine/Operands.lean ====
section
/-! DEFINITION. A vector register seen as four lanes, the lane function of the family, and the byte image of a register. -/

namespace Sys2Proof.Machine

/-- `lane(V, i) = V[127 - 32i : 96 - 32i]`: lane 0 is the most significant word (00_scope.md R3, 10_state.md R13). -/
def lane (v : Vec128) (i : Fin 4) : Word := v.extractLsb' (96 - 32 * i.val) 32

/-- The vector with the given lanes, lane 0 first and most significant (00_scope.md R4). -/
def ofLanes (l0 l1 l2 l3 : Word) : Vec128 := l0 ++ l1 ++ l2 ++ l3

/-- One lane of the result: all ones when the two words agree in all 32 bits, else zero (40_vector_compare.md R60, R67). -/
def cmpEqLane (a b : Word) : Word := if a = b then 0xFFFFFFFF#32 else 0x00000000#32

/-- `CmpEqW(A, B)`: each lane from the same lane of the two sources, no other traffic between lanes (R60). -/
def cmpEqW (a b : Vec128) : Vec128 :=
  ofLanes (cmpEqLane (lane a 0) (lane b 0)) (cmpEqLane (lane a 1) (lane b 1)) (cmpEqLane (lane a 2) (lane b 2))
    (cmpEqLane (lane a 3) (lane b 3))

/-- Byte `k` of the 16-byte image of a register in memory, `V[127 - 8k : 120 - 8k]` (20_memory.md R31). No instruction uses
it: it relates a register to an image that only an out-of-scope store could make (log 21). -/
def imageByte (v : Vec128) (k : Fin 16) : Byte := v.extractLsb' (120 - 8 * k.val) 8

end Sys2Proof.Machine
end

