-- ==== Sys2Proof/Machine/Flags.lean ====
section
/-! DEFINITION. The condition-register field a record form writes. -/

namespace Sys2Proof.Machine

/-- Whether all four lanes of a vector hold the word `x`. -/
def allLanes (x : Word) (r : Vec128) : Bool := lane r 0 = x && lane r 1 = x && lane r 2 = x && lane r 3 = x

/-- `CR6FromMask(R) = [lt = all-true, gt = 0, eq = all-false, so = 0]`: all four bits, whatever they held before
(40_vector_compare.md R61). -/
def cr6FromMask (r : Vec128) : CrField where
  lt := allLanes 0xFFFFFFFF#32 r
  gt := false
  eq := allLanes 0x00000000#32 r
  so := false

/-- A condition field as one 4-bit number, the first listed bit the most significant (00_scope.md R5; D12). -/
def CrField.toBits (c : CrField) : BitVec 4 :=
  BitVec.ofBool c.lt ++ BitVec.ofBool c.gt ++ BitVec.ofBool c.eq ++ BitVec.ofBool c.so

end Sys2Proof.Machine
end

