-- ==== Sys2Proof/Syntax.lean ====
section
/-! DEFINITION. The instructions: one constructor for each row of spec/opcode_table.json. -/

namespace Sys2Proof

/-- The four instructions (40_vector_compare.md R62 to R65). The operands are `VD`, `VA`, `VB` in the order the assembler
writes them (30_encoding.md R52). A register number has one type for both formats, because both address one register file
(10_state.md R12); that format `VC` reaches only numbers 0 to 31 is a matter of well-formedness (log 16). -/
inductive Instr where
  /-- `vcmpequw VD, VA, VB`, format `VC`, `Rc` = 0 (R62). -/
  | vcmpequw (vd va vb : VReg)
  /-- `vcmpequw. VD, VA, VB`, format `VC`, `Rc` = 1 (R63). -/
  | vcmpequwRc (vd va vb : VReg)
  /-- `vcmpequw128 VD, VA, VB`, format `VX128_R`, `Rc` = 0 (R64). -/
  | vcmpequw128 (vd va vb : VReg)
  /-- `vcmpequw128. VD, VA, VB`, format `VX128_R`, `Rc` = 1 (R65). -/
  | vcmpequw128Rc (vd va vb : VReg)
deriving DecidableEq, Repr

/-- The two instruction formats (30_encoding.md R40). -/
inductive Format where
  | vc
  | vx128r
deriving DecidableEq, Repr

/-- The format of an instruction; the mnemonic fixes it (R52; D20). -/
def Instr.format : Instr → Format
  | .vcmpequw _ _ _ => .vc
  | .vcmpequwRc _ _ _ => .vc
  | .vcmpequw128 _ _ _ => .vx128r
  | .vcmpequw128Rc _ _ _ => .vx128r

/-- The `Rc` bit: true for the record forms, which also write `CR6` (R45). -/
def Instr.rc : Instr → Bool
  | .vcmpequw _ _ _ => false
  | .vcmpequwRc _ _ _ => true
  | .vcmpequw128 _ _ _ => false
  | .vcmpequw128Rc _ _ _ => true

/-- The destination register number `VD`. -/
def Instr.vd : Instr → VReg
  | .vcmpequw vd _ _ => vd
  | .vcmpequwRc vd _ _ => vd
  | .vcmpequw128 vd _ _ => vd
  | .vcmpequw128Rc vd _ _ => vd

/-- The source register number `VA`. -/
def Instr.va : Instr → VReg
  | .vcmpequw _ va _ => va
  | .vcmpequwRc _ va _ => va
  | .vcmpequw128 _ va _ => va
  | .vcmpequw128Rc _ va _ => va

/-- The source register number `VB`. -/
def Instr.vb : Instr → VReg
  | .vcmpequw _ _ vb => vb
  | .vcmpequwRc _ _ vb => vb
  | .vcmpequw128 _ _ vb => vb
  | .vcmpequw128Rc _ _ vb => vb

/-- The spelling of the mnemonic, with the trailing dot of a record form (R52). -/
def Instr.mnemonic : Instr → String
  | .vcmpequw _ _ _ => "vcmpequw"
  | .vcmpequwRc _ _ _ => "vcmpequw."
  | .vcmpequw128 _ _ _ => "vcmpequw128"
  | .vcmpequw128Rc _ _ _ => "vcmpequw128."

end Sys2Proof
end

