-- ==== Sys2Proof/WellFormed.lean ====
section
/-! DEFINITION. Which instructions have an encoding. -/

namespace Sys2Proof

/-- A register number that a 5-bit field of format `VC` can hold: 0 to 31 (30_encoding.md R43, R53). -/
def VReg.fitsVc (n : VReg) : Bool := n.val < Config.numVrVc

/-- The range check of each format: `VC` takes register numbers 0 to 31 in all three operands; `VX128_R` takes every
number, and no combination of numbers is excluded (30_encoding.md R49, R53). -/
def Instr.wf : Instr → Bool
  | .vcmpequw vd va vb => VReg.fitsVc vd && VReg.fitsVc va && VReg.fitsVc vb
  | .vcmpequwRc vd va vb => VReg.fitsVc vd && VReg.fitsVc va && VReg.fitsVc vb
  | .vcmpequw128 _ _ _ => true
  | .vcmpequw128Rc _ _ _ => true

end Sys2Proof
end

