-- ==== Sys2Proof/Decode.lean ====
section
/-! DEFINITION. Decoding of words and bytes, rejecting by name; then the encoder, the assembler's mnemonics and operand check, the
idioms of R54, and the word of an opcode-table row. -/

namespace Sys2Proof

/-- Why bytes decode to no instruction. -/
inductive DecodeError where
  /-- A word that matches none of the four patterns: `NotInScope` (30_encoding.md R48, R50). Safe: it gets no meaning. -/
  | notInScope
  /-- Fewer than the four bytes of a word. Only a caller that hands over fewer bytes sees it; `step` never does. -/
  | truncated
deriving DecidableEq, Repr

/-! ### Bits, fields and byte order of a word -/

/-- The field of width `n` whose first and most significant bit is bit `a` of the word, where bit 0 is the most significant:
`w{a:b}` with `b = a + n - 1` (00_scope.md R1, R2). -/
def field (w : Word) (a n : Nat) : BitVec n := w.extractLsb' (32 - a - n) n

/-- The word held by four bytes, the first byte (lowest address) most significant (20_memory.md R32; log 6). -/
def wordOfBytes (b0 b1 b2 b3 : Byte) : Word := b0 ++ b1 ++ b2 ++ b3

/-- The bytes of a word in the order of their addresses (R32). -/
def bytesOfWord (w : Word) : List Byte := [field w 0 8, field w 8 8, field w 16 8, field w 24 8]

/-! ### Decoding -/

/-- A register number from a 5-bit field of format `VC`, unchanged (30_encoding.md R43). -/
def vregOfVc (f : BitVec 5) : VReg := (BitVec.setWidth 7 f).toFin

/-- A register number from the two high bits and the low five bits of format `VX128_R` (30_encoding.md R44). -/
def vregOfVx128 (hi : BitVec 2) (lo : BitVec 5) : VReg := (hi ++ lo : BitVec 7).toFin

/-- The instruction of a word of format `VC`: the fields of R41, the operands of R43, `Rc` = bit 21 (R45). -/
def decodeVc (w : Word) : Instr :=
  let vd := vregOfVc (field w 6 5)
  let va := vregOfVc (field w 11 5)
  let vb := vregOfVc (field w 16 5)
  if field w 21 1 = 1#1 then .vcmpequwRc vd va vb else .vcmpequw vd va vb

/-- The instruction of a word of format `VX128_R`: the fields of R42, the operands of R44, `Rc` = bit 27 (R45; log 10). -/
def decodeVx128 (w : Word) : Instr :=
  let vd := vregOfVx128 (field w 28 2) (field w 6 5)
  let va := vregOfVx128 (field w 21 1 ++ field w 26 1) (field w 11 5)
  let vb := vregOfVx128 (field w 30 2) (field w 16 5)
  if field w 27 1 = 1#1 then .vcmpequw128Rc vd va vb else .vcmpequw128 vd va vb

/-- Decode of one word, total: the two mask-and-match tests of 30_encoding.md R48, every other word `NotInScope`. -/
def decodeWord (w : Word) : Except DecodeError Instr :=
  if w &&& 0xFC0003FF#32 = 0x10000086#32 then .ok (decodeVc w)
  else if w &&& 0xFC0003C0#32 = 0x18000200#32 then .ok (decodeVx128 w)
  else .error .notInScope

/-- Decode of the instruction at the head of a list of bytes, with the bytes after it; total on any bytes. -/
def decodeBytes : List Byte → Except DecodeError (Instr × List Byte)
  | b0 :: b1 :: b2 :: b3 :: rest =>
    match decodeWord (wordOfBytes b0 b1 b2 b3) with
    | .ok i => .ok (i, rest)
    | .error e => .error e
  | _ => .error .truncated

/-! ### Encoding -/

/-- The 5-bit field of a register number; a well-formed `VC` operand loses nothing by it. -/
def vregLow (n : VReg) : BitVec 5 := (BitVec.ofFin (w := 7) n).extractLsb' 0 5

/-- Bit `k` (0 to 6) of a register number as a field of one bit. -/
def vregBit (n : VReg) (k : Nat) : BitVec 1 := (BitVec.ofFin (w := 7) n).extractLsb' k 1

/-- The two high bits of a register number. -/
def vregHigh (n : VReg) : BitVec 2 := (BitVec.ofFin (w := 7) n).extractLsb' 5 2

/-- A word of format `VC`, field after field from bit 0 (the table of 30_encoding.md R41). -/
def encodeVc (vd va vb : VReg) (rc : BitVec 1) : Word :=
  Config.opcdVc ++ vregLow vd ++ vregLow va ++ vregLow vb ++ rc ++ Config.xoVc

/-- A word of format `VX128_R`, field after field from bit 0 (the table of 30_encoding.md R42). -/
def encodeVx128 (vd va vb : VReg) (rc : BitVec 1) : Word :=
  Config.opcdVx128 ++ vregLow vd ++ vregLow va ++ vregLow vb ++ vregBit va 6 ++ Config.xoVx128 ++ vregBit va 5 ++ rc
    ++ vregHigh vd ++ vregHigh vb

/-- The word of a well-formed instruction (30_encoding.md R51). -/
def encode : Instr → Word
  | .vcmpequw vd va vb => encodeVc vd va vb 0#1
  | .vcmpequwRc vd va vb => encodeVc vd va vb 1#1
  | .vcmpequw128 vd va vb => encodeVx128 vd va vb 0#1
  | .vcmpequw128Rc vd va vb => encodeVx128 vd va vb 1#1

/-! ### Assembler -/

/-- A register operand as it is written: `vN` or the bare number `N` (30_encoding.md R53; log 20). -/
inductive OperandText where
  | v (n : Nat)
  | bare (n : Nat)
deriving DecidableEq, Repr

/-- The number written in an operand; both spellings name the same register (R53). -/
def OperandText.number : OperandText → Nat
  | .v n => n
  | .bare n => n

/-- The registers a mnemonic's format can name (R53). -/
def Format.numRegs : Format → Nat
  | .vc => Config.numVrVc
  | .vx128r => Config.numVr

/-- An operand's register number, or none when it is outside the range of the format: an assembly error, not a wrap (R53). -/
def OperandText.toVReg (f : Format) (t : OperandText) : Option VReg :=
  if t.number < f.numRegs then
    if h : t.number < 128 then some ⟨t.number, h⟩ else none
  else none

/-- The instruction of a mnemonic (format and `Rc`) with its three register numbers (R52). -/
def Instr.ofParts (f : Format) (rc : Bool) (vd va vb : VReg) : Instr :=
  match f, rc with
  | .vc, false => .vcmpequw vd va vb
  | .vc, true => .vcmpequwRc vd va vb
  | .vx128r, false => .vcmpequw128 vd va vb
  | .vx128r, true => .vcmpequw128Rc vd va vb

/-- One assembled line, `mnemonic[.] VD, VA, VB`, destination first: its word, or none for an assembly error. The mnemonic
fixes the format (R52, R53; D13, D20). -/
def assemble (f : Format) (rc : Bool) (vd va vb : OperandText) : Option Word :=
  match vd.toVReg f, va.toVReg f, vb.toVReg f with
  | some d, some a, some b => some (encode (Instr.ofParts f rc d a b))
  | _, _, _ => none

/-- The format and `Rc` that a mnemonic stands for. The four spellings of 30_encoding.md R52 and no other: there is no extended
mnemonic, no alias and no macro (R54). -/
def readMnemonic (m : String) : Option (Format × Bool) :=
  if m = "vcmpequw" then some (.vc, false)
  else if m = "vcmpequw." then some (.vc, true)
  else if m = "vcmpequw128" then some (.vx128r, false)
  else if m = "vcmpequw128." then some (.vx128r, true)
  else none

/-- One line of assembly, split into its mnemonic and its three operands (log 20): one word, or none for an assembly error.
No line stands for another instruction, or for several (R52, R53, R54). -/
def assembleLine (m : String) (vd va vb : OperandText) : Option Word :=
  match readMnemonic m with
  | some (f, rc) => assemble f rc vd va vb
  | none => none

/-- The first idiom of 30_encoding.md R54, an ordinary use of the instruction: `vcmpequw vD, vA, vA`, which sets `vD` to all
ones whatever `vA` holds. -/
def Instr.allOnesIdiom (vd va : VReg) : Instr := .vcmpequw vd va va

/-- The second idiom of R54, an ordinary use of the instruction: the record form of either format, used only for its CR6
result, with a scratch `VD`. -/
def Instr.testIdiom (f : Format) (scratch va vb : VReg) : Instr := Instr.ofParts f true scratch va vb

/-! ### The opcode table's words -/

/-- The word of an opcode-table row: its `nbits` bits, bit 0 the least significant, every bit above them 0. -/
def tableWord (nbits w : Nat) : Word := BitVec.ofNat 32 (w % 2 ^ nbits)

/-- What the decoder reads from an opcode-table row's word laid out in memory; none where it refuses. -/
def decodeTableWord (nbits w : Nat) : Option Instr :=
  match decodeBytes (bytesOfWord (tableWord nbits w)) with
  | .ok (i, _) => some i
  | .error _ => none

end Sys2Proof
end

