-- ==== Sys2Proof/Machine/Ops.lean ====
section
/-! DEFINITION. The named operations over registers and memory: register access, the program counter, fetch, the end of a
run, and the host's load of program text. The spec describes no exception and no return from one (60_exceptions.md R80, R83,
R84), so there is no operation that takes or leaves one. -/

namespace Sys2Proof.Machine

/-! ### Memory -/

/-- The canonical form: addresses strictly rising. An unlisted address has no value, so no entry can equal it. -/
def Memory.wf (m : Memory) : Bool := decide (m.Pairwise fun c d => c.1 < d.1)

/-- The byte at an address, or none where nothing is listed (log 5). -/
def Memory.read : Memory → Nat → Option Byte
  | [], _ => none
  | (b, v) :: m, a => if a = b then some v else Memory.read m a

/-- The memory with one byte written, keeping the canonical form. No instruction stores (20_memory.md R30): only the host's
load of a program writes. -/
def Memory.write : Memory → Nat → Byte → Memory
  | [], a, v => [(a, v)]
  | (b, u) :: m, a, v =>
    if a < b then (a, v) :: (b, u) :: m
    else if a = b then (a, v) :: m
    else (b, u) :: Memory.write m a v

/-- The memory with consecutive bytes written from an address up. -/
def Memory.writeBytes : Memory → Nat → List Byte → Memory
  | m, _, [] => m
  | m, a, v :: vs => Memory.writeBytes (Memory.write m a v) (a + 1) vs

/-! ### The program counter -/

/-- The address as a number. -/
def Pc.addr : Pc → Nat
  | .w32 a => a.toNat
  | .w64 a => a.toNat

/-- `PCW`, the width of the program counter in bits (10_state.md R16; D2). -/
def Pc.width : Pc → Nat
  | .w32 _ => 32
  | .w64 _ => 64

/-- The address of the next word, or none when it does not fit in `PCW` bits (R16). -/
def Pc.next : Pc → Option Pc
  | .w32 a => if a.toNat + Config.instrBytes < 2 ^ 32 then some (.w32 (BitVec.ofNat 32 (a.toNat + Config.instrBytes))) else none
  | .w64 a => if a.toNat + Config.instrBytes < 2 ^ 64 then some (.w64 (BitVec.ofNat 64 (a.toNat + Config.instrBytes))) else none

/-! ### Registers -/

/-- `vr[n]` (10_state.md R11). -/
def State.readVr (s : State) (n : VReg) : Vec128 := s.vr[n]

/-- `vr[n] <- v`; no other register changes (R12). -/
def State.writeVr (s : State) (n : VReg) (v : Vec128) : State := { s with vr := s.vr.set n v }

/-- `CR6 <- c`, all four bits and no other condition field (R14, R15). -/
def State.writeCr6 (s : State) (c : CrField) : State := { s with cr6 := c }

/-- The contents of an opaque register: an unlisted one holds 0 (log 9). -/
def RegFile.read : RegFile → Nat → Nat
  | [], _ => 0
  | (k, v) :: f, n => if n = k then v else RegFile.read f n

/-- The end of every instruction: `pc <- pc + 4`, or `refuse(pc_overflow)` with none of the instruction's writes kept
(R16, R70; 60_exceptions.md R88). -/
def State.retire (s : State) : Host.Outcome State Fault Refusal :=
  match s.pc.next with
  | some p => .next { s with pc := p }
  | none => .refused .pcOverflow

/-! ### Fetch -/

/-- Whether an address lies in one piece of `CodeRegion`. -/
def CodeRange.holds (r : CodeRange) (a : Nat) : Bool := r.base ≤ a && a < r.base + r.size

/-- Whether a byte address lies inside `CodeRegion` (20_memory.md R33). -/
def State.inCode (s : State) (a : Nat) : Bool := s.code.any fun r => r.holds a

/-- The byte of program text at an address: inside `CodeRegion`, and listed (R33, R34; log 5). -/
def State.codeByte (s : State) (a : Nat) : Option Byte := if s.inCode a then s.mem.read a else none

/-- `Fetch(a)`, admitted only when `a mod 4 = 0` and the four bytes are program text; the first byte holds bits 0 to 7
(20_memory.md R32, R33). -/
def State.fetchAt (s : State) (a : Nat) : Option Word :=
  if a % 4 = 0 then
    match s.codeByte a, s.codeByte (a + 1), s.codeByte (a + 2), s.codeByte (a + 3) with
    | some b0, some b1, some b2, some b3 => some (wordOfBytes b0 b1 b2 b3)
    | _, _, _, _ => none
  else none

/-- The word at `pc` (R32, R33). -/
def State.fetch (s : State) : Option Word := s.fetchAt s.pc.addr

/-- Whether `pc` equals `end_pc`: the run has ended and no step is taken (70_reset_and_hazards.md R95). -/
def State.ended (s : State) : Bool := s.endPc = some s.pc.addr

/-! ### The host's load -/

/-- The host places a word of program text: its four bytes, and those addresses as part of `CodeRegion`
(70_reset_and_hazards.md R91 `CodeLoaded`, R96). -/
def State.placeWord (s : State) (a : Nat) (w : Word) : State :=
  { s with mem := s.mem.writeBytes a (bytesOfWord w), code := ⟨a, Config.instrBytes⟩ :: s.code }

end Sys2Proof.Machine
end

