-- ==== Sys2Proof/Machine/VectorCompare.lean ====
section
/-! DEFINITION. The meanings of the vector compare equal-to unsigned word family (40_vector_compare.md §2). -/

namespace Sys2Proof.Machine

/-- The mask an instruction writes: both sources are read in full before any write, so the three registers may coincide
(R60, R66). -/
def compareMask (va vb : VReg) (s : State) : Vec128 := cmpEqW (s.readVr va) (s.readVr vb)

/-- `vcmpequw VD, VA, VB` (R62). -/
def execVcmpequw (vd va vb : VReg) (s : State) : Host.Outcome State Fault Refusal :=
  (s.writeVr vd (compareMask va vb s)).retire

/-- `vcmpequw. VD, VA, VB`: as R62, and `CR6` from the mask (R63). -/
def execVcmpequwRc (vd va vb : VReg) (s : State) : Host.Outcome State Fault Refusal :=
  ((s.writeVr vd (compareMask va vb s)).writeCr6 (cr6FromMask (compareMask va vb s))).retire

/-- `vcmpequw128 VD, VA, VB`: the semantics of R62 with the extended encoding (R64). -/
def execVcmpequw128 (vd va vb : VReg) (s : State) : Host.Outcome State Fault Refusal :=
  (s.writeVr vd (compareMask va vb s)).retire

/-- `vcmpequw128. VD, VA, VB`: as R64, and `CR6` from the mask (R65). -/
def execVcmpequw128Rc (vd va vb : VReg) (s : State) : Host.Outcome State Fault Refusal :=
  ((s.writeVr vd (compareMask va vb s)).writeCr6 (cr6FromMask (compareMask va vb s))).retire

end Sys2Proof.Machine
end

