-- ==== Sys2Proof/Machine/Dispatch.lean ====
section
/-! DEFINITION. One arm per instruction: a direct call of its meaning. -/

namespace Sys2Proof.Machine

def exec (i : Instr) (s : State) : Host.Outcome State Fault Refusal :=
  match i with
  | .vcmpequw vd va vb => Sys2Proof.Machine.execVcmpequw vd va vb s
  | .vcmpequwRc vd va vb => Sys2Proof.Machine.execVcmpequwRc vd va vb s
  | .vcmpequw128 vd va vb => Sys2Proof.Machine.execVcmpequw128 vd va vb s
  | .vcmpequw128Rc vd va vb => Sys2Proof.Machine.execVcmpequw128Rc vd va vb s

end Sys2Proof.Machine
end

