-- ==== Sys2Proof/Machine/Step.lean ====
section
/-! DEFINITION. One step of the single agent, and the placing of an instruction where it fetches next. -/

namespace Sys2Proof.Machine

/-- One step, its checks in the order of 60_exceptions.md R88: the end of the run, the admission of the fetch, the decode,
then the instruction, which refuses when `pc + 4` does not fit and otherwise makes one transition (R22, R70). -/
def step (s : State) : Host.Outcome State Fault Refusal :=
  if s.ended then .fault .runEnded
  else
    match s.fetch with
    | none => .refused .fetchNotAdmitted
    | some w =>
      match decodeWord w with
      | .error _ => .refused .notInScope
      | .ok i => exec i s

/-- The state with an opcode-table row's instruction placed at `pc`: its bytes, those addresses as program text, and no end
of the run at `pc` (log 7). -/
def State.withFetchWord (s : State) (nbits w : Nat) : State :=
  { s.placeWord s.pc.addr (tableWord nbits w) with endPc := if s.ended then none else s.endPc }

end Sys2Proof.Machine
end

