-- ==== Sys2Proof/Safety.lean ====
section
/-! DEFINITION. The terms in which claims speak of states and runs: what an instruction leaves alone, masks and the values of
CR6, the invariant, the launch premises, and what no instruction reads. -/

namespace Sys2Proof.Machine

/-- `n` steps, stopping at the first fault or refusal: the host's `Core.run` of this machine at the machine's own types. A
refusal is kept for the whole run (60_exceptions.md R82). -/
def run : Nat → State → Host.Outcome State Fault Refusal
  | 0, s => .next s
  | n + 1, s =>
    match step s with
    | .next t => run n t
    | .fault f => .fault f
    | .refused r => .refused r

/-- What an instruction with destination `vd` leaves alone, CR6 apart: every other vector register, every byte of memory,
CodeRegion, end_pc, PCW, and everything else the spec names (10_state.md R19). -/
def UnchangedBut (vd : VReg) (s t : State) : Prop :=
  (∀ n, n ≠ vd → t.readVr n = s.readVr n) ∧ (∀ a, t.mem.read a = s.mem.read a) ∧ t.mem = s.mem ∧ t.code = s.code ∧
    t.endPc = s.endPc ∧ t.pc.width = s.pc.width ∧ t.other = s.other

/-- A mask: every lane all ones or all zero (00_scope.md, glossary; 40_vector_compare.md R69 (a)). -/
def IsMask (v : Vec128) : Prop := ∀ i, lane v i = 0x00000000#32 ∨ lane v i = 0xFFFFFFFF#32

/-- The vector whose lane `i` is lane `σ i` of `v` (R69 (f)). -/
def permuteLanes (σ : Equiv.Perm (Fin 4)) (v : Vec128) : Vec128 :=
  ofLanes (lane v (σ 0)) (lane v (σ 1)) (lane v (σ 2)) (lane v (σ 3))

/-- A value of CR6 that a record form can leave: `gt` and `so` zero, `lt` and `eq` not both one (R61, R69 (c)). -/
def CrField.Legal (c : CrField) : Prop := c.gt = false ∧ c.so = false ∧ ¬(c.lt = true ∧ c.eq = true)

/-- What every step keeps: the canonical form of memory, the alignment of `pc` (20_memory.md R33), and a legal CR6. -/
def Inv (s : State) : Prop := s.mem.wf = true ∧ s.pc.addr % 4 = 0 ∧ s.cr6.Legal

/-- Check 1 of a step: `pc` is a multiple of 4 and `pc` to `pc + 3` lie inside CodeRegion (R33; 60_exceptions.md R88). -/
def Admitted (s : State) : Prop := s.pc.addr % 4 = 0 ∧ ∀ k < 4, s.inCode (s.pc.addr + k) = true

/-- The launch premises of 70_reset_and_hazards.md R91 that speak of the model's state, for the words `prog` from the launch
`pc`: `CodeLoaded`, `EntryAligned` and `NoTopOfSpace`. The other three speak of the chip (log 13, 14, 15). -/
structure Launched (s : State) (prog : List Word) : Prop where
  codeLoaded : ∀ k w, prog[k]? = some w → s.fetchAt (s.pc.addr + 4 * k) = some w
  entryAligned : s.pc.addr % 4 = 0
  noTopOfSpace : s.pc.addr + 4 * prog.length < 2 ^ s.pc.width

/-- Every word is one of the four instructions. -/
def AllInScope (prog : List Word) : Prop := ∀ w ∈ prog, ∃ i, decodeWord w = .ok i

/-- Two states that agree on all that an instruction or a fetch reads; they may differ in CR6 and in the registers the spec
only names (10_state.md R14, R17, R18). -/
def AgreeOnRead (s t : State) : Prop :=
  t.vr = s.vr ∧ t.pc = s.pc ∧ t.mem = s.mem ∧ t.code = s.code ∧ t.endPc = s.endPc

end Sys2Proof.Machine
end

