-- ==== Sys2Proof/Certificates/Slice0/Obligations.lean ====
section
/-! DEFINITION. The statements for the provers, in the order of the spec's files. -/

open Sys2Proof Sys2Proof.Machine

/-! ### Notation: bits, fields, lanes (00_scope.md, 10_state.md, 20_memory.md) -/

/-- R1, R2: a field is the stated shift and mask, its bits are the word's bits `a` to `b` counted from the most significant
end, most significant first; the two words by which the source fixes the numbering. -/
def Obligations.FieldIsMostSignificantFirst : Prop :=
  (∀ (w : Word) (a b : Nat), a ≤ b → b ≤ 31 →
    (field w a (b - a + 1)).toNat = (w.toNat >>> (31 - b)) &&& (2 ^ (b - a + 1) - 1) ∧
      ∀ k ≤ b - a, (field w a (b - a + 1)).getMsbD k = w.getMsbD (a + k)) ∧
  field 0x10000086#32 0 6 = 4#6 ∧ field 0x18000200#32 0 6 = 6#6 ∧ field 0x10000086#32 22 10 = 134#10

/-- R3, R13: lane `i` is bits `127 - 32i` down to `96 - 32i`, so lane 0 is the most significant word. -/
def Obligations.LaneBitsFromMostSignificant : Prop :=
  ∀ (v : Vec128) (i : Fin 4) (k : Nat), k < 32 →
    (lane v i).getLsbD k = v.getLsbD (96 - 32 * i.val + k) ∧ (lane v i).getMsbD k = v.getMsbD (32 * i.val + k)

/-- R31: byte `k` of a register's image is bits `127 - 8k` down to `120 - 8k`; bytes `4i` to `4i + 3` hold lane `i`, its most
significant byte first. -/
def Obligations.RegisterImageIsBigEndian : Prop :=
  (∀ (v : Vec128) (k : Fin 16) (j : Nat), j < 8 → (imageByte v k).getLsbD j = v.getLsbD (120 - 8 * k.val + j)) ∧
  ∀ (v : Vec128) (i k : Fin 4) (h : 4 * i.val + k.val < 16),
    imageByte v ⟨4 * i.val + k.val, h⟩ = (lane v i).extractLsb' (24 - 8 * k.val) 8

/-! ### State (10_state.md) -/

/-- R12: `vr[m]` and `vr[n]` are distinct storage for `m ≠ n`; both formats read and write the same registers; a decoded
`VC` instruction names only numbers 0 to 31. -/
def Obligations.OneRegisterFileForBothFormats : Prop :=
  (∀ (s : State) (m n : VReg) (v : Vec128),
    (s.writeVr m v).readVr m = v ∧ (n ≠ m → (s.writeVr m v).readVr n = s.readVr n)) ∧
  (∀ (s t u : State) (d a b e c : VReg), exec (.vcmpequw d a b) s = .next t → exec (.vcmpequw128 e d c) t = .next u →
    u.readVr e = cmpEqW (cmpEqW (s.readVr a) (s.readVr b)) (t.readVr c)) ∧
  (∀ (s t u : State) (d a b e c : VReg), exec (.vcmpequw128 d a b) s = .next t → exec (.vcmpequw e c d) t = .next u →
    u.readVr e = cmpEqW (t.readVr c) (cmpEqW (s.readVr a) (s.readVr b))) ∧
  ∀ (w : Word) (i : Instr), decodeWord w = .ok i → i.format = .vc → i.vd.val < 32 ∧ i.va.val < 32 ∧ i.vb.val < 32

/-- R14: the record forms write all four bits of CR6 whatever they held, the plain forms keep it, and no instruction reads
it: with another CR6 before, everything else comes out the same. -/
def Obligations.Cr6WrittenByRecordFormsReadByNone : Prop :=
  ∀ (i : Instr) (s t : State) (c : CrField), exec i s = .next t →
    exec i { s with cr6 := c } = .next { t with cr6 := if i.rc then t.cr6 else c } ∧
      (i.rc = true → t.cr6 = cr6FromMask (t.readVr i.vd)) ∧ (i.rc = false → t.cr6 = s.cr6)

/-- R16: every instruction ends with `pc + 4` in the same width, or is refused when that does not fit; it uses `pc` for
nothing else. -/
def Obligations.PcAdvancesByFourOrOverflowIsRefused : Prop :=
  ∀ (i : Instr) (s : State),
    (s.pc.addr + 4 < 2 ^ s.pc.width →
      ∃ t, exec i s = .next t ∧ t.pc.addr = s.pc.addr + 4 ∧ t.pc.width = s.pc.width ∧
        ∀ q : Pc, q.addr + 4 < 2 ^ q.width → ∃ u, exec i { s with pc := q } = .next u ∧ u = { t with pc := u.pc }) ∧
    (2 ^ s.pc.width ≤ s.pc.addr + 4 → exec i s = .refused .pcOverflow)

/-- R15, R17, R18: no instruction reads or writes a bit of the other condition fields, VSCR, XER, a general or a
floating-point register; the `so` bit a record form writes is 0, not XER.SO. -/
def Obligations.OtherRegistersUnreadAndUnwritten : Prop :=
  ∀ (i : Instr) (s t : State) (o : OtherState), exec i s = .next t →
    t.other = s.other ∧ exec i { s with other := o } = .next { t with other := o } ∧ (i.rc = true → t.cr6.so = false)

/-- R19: the frame of all four instructions. -/
def Obligations.InstructionFrame : Prop :=
  ∀ (i : Instr) (s t : State), exec i s = .next t → UnchangedBut i.vd s t ∧ (i.rc = false → t.cr6 = s.cr6)

/-! ### Memory and fetch (20_memory.md) -/

/-- R30: no instruction reads or writes a byte of memory. -/
def Obligations.NoDataMemoryAccess : Prop :=
  ∀ (i : Instr) (s t : State) (m : Memory), exec i s = .next t →
    t.mem = s.mem ∧ exec i { s with mem := m } = .next { t with mem := m }

/-- R32: a step fetches the word at `pc`; where four bytes of program text stand at an aligned address, the word is those
bytes big-endian, the byte at the lowest address holding bits 0 to 7. -/
def Obligations.FetchAssemblesBigEndianWord : Prop :=
  (∀ s : State, s.fetch = s.fetchAt s.pc.addr) ∧
  ∀ (s : State) (a : Nat) (b0 b1 b2 b3 : Byte), a % 4 = 0 → (∀ k < 4, s.inCode (a + k) = true) →
    s.mem.read a = some b0 → s.mem.read (a + 1) = some b1 → s.mem.read (a + 2) = some b2 →
    s.mem.read (a + 3) = some b3 →
    ∃ w, s.fetchAt a = some w ∧
      w.toNat = b0.toNat * 2 ^ 24 + b1.toNat * 2 ^ 16 + b2.toNat * 2 ^ 8 + b3.toNat ∧ field w 0 8 = b0

/-- R33: a misaligned `pc`, or one whose four bytes are not all inside CodeRegion, is refused; a step keeps `pc` aligned. -/
def Obligations.FetchAdmissionAndAlignment : Prop :=
  (∀ s : State, s.endPc ≠ some s.pc.addr → ¬ Admitted s → step s = .refused .fetchNotAdmitted) ∧
  ∀ s t : State, step s = .next t → s.pc.addr % 4 = 0 ∧ t.pc.addr % 4 = 0

/-- The model's choice for R33 and R34 (log 5): an address of CodeRegion where no byte is listed holds no program text, so
a fetch from it is refused as well. -/
def Obligations.UnlistedProgramTextIsNotFetched : Prop :=
  ∀ (s : State) (k : Nat), s.endPc ≠ some s.pc.addr → k < 4 → s.mem.read (s.pc.addr + k) = none →
    step s = .refused .fetchNotAdmitted

/-- `State.placeWord` is the model's own stand-in for the host's load (log 7, DESIGN CHOICE; the spec asks in R91 and R96 only
that the text be loaded): the word it places at an aligned address is fetched from there, no other byte changes, CodeRegion
loses nothing, and memory keeps its canonical form. -/
def Obligations.PlacedWordIsFetched : Prop :=
  ∀ (s : State) (a : Nat) (w : Word),
    (a % 4 = 0 → (s.placeWord a w).fetchAt a = some w) ∧
    (∀ b, b < a ∨ a + 4 ≤ b → (s.placeWord a w).mem.read b = s.mem.read b) ∧
    (∀ b, s.inCode b = true → (s.placeWord a w).inCode b = true) ∧
    (s.mem.wf = true → (s.placeWord a w).mem.wf = true)

/-! ### Encoding (30_encoding.md) -/

/-- R43, R44, R45, R48: decode of every word, with the operands and `Rc` by the shifts and masks of the two tables. -/
def Obligations.DecodeReadsTheTablesFields : Prop :=
  ∀ w : Word,
    if w &&& 0xFC0003FF#32 = 0x10000086#32 then
      ∃ i, decodeWord w = .ok i ∧ i.format = .vc ∧ (i.rc = true ↔ (w.toNat >>> 10) &&& 1 = 1) ∧
        i.vd.val = (w.toNat >>> 21) &&& 0x1F ∧ i.va.val = (w.toNat >>> 16) &&& 0x1F ∧ i.vb.val = (w.toNat >>> 11) &&& 0x1F
    else if w &&& 0xFC0003C0#32 = 0x18000200#32 then
      ∃ i, decodeWord w = .ok i ∧ i.format = .vx128r ∧ (i.rc = true ↔ (w.toNat >>> 4) &&& 1 = 1) ∧
        i.vd.val = 32 * ((w.toNat >>> 2) &&& 3) + ((w.toNat >>> 21) &&& 0x1F) ∧
        i.va.val = 64 * ((w.toNat >>> 10) &&& 1) + 32 * ((w.toNat >>> 5) &&& 1) + ((w.toNat >>> 16) &&& 0x1F) ∧
        i.vb.val = 32 * (w.toNat &&& 3) + ((w.toNat >>> 11) &&& 0x1F)
    else decodeWord w = .error .notInScope

/-- R47: the four rows of mask and match select the four instructions, and no word matches two rows. -/
def Obligations.MaskAndMatchSelectTheInstruction : Prop :=
  ∀ w : Word,
    (w &&& 0xFC0007FF#32 = 0x10000086#32 ↔ ∃ d a b, decodeWord w = .ok (.vcmpequw d a b)) ∧
    (w &&& 0xFC0007FF#32 = 0x10000486#32 ↔ ∃ d a b, decodeWord w = .ok (.vcmpequwRc d a b)) ∧
    (w &&& 0xFC0003D0#32 = 0x18000200#32 ↔ ∃ d a b, decodeWord w = .ok (.vcmpequw128 d a b)) ∧
    (w &&& 0xFC0003D0#32 = 0x18000210#32 ↔ ∃ d a b, decodeWord w = .ok (.vcmpequw128Rc d a b)) ∧
    ¬(w &&& 0xFC0003FF#32 = 0x10000086#32 ∧ w &&& 0xFC0003C0#32 = 0x18000200#32)

/-- R49: every combination of register numbers of a format is the decoding of some word, and the words of the two formats
are exactly `2 * 2^15` and `2 * 2^21`. -/
def Obligations.EveryOperandCombinationIsOneWord : Prop :=
  (∀ i : Instr, i.wf = true → ∃ w, decodeWord w = .ok i) ∧
  {w : Word | ∃ i, decodeWord w = .ok i ∧ i.format = .vc}.ncard = 2 * 2 ^ 15 ∧
  {w : Word | ∃ i, decodeWord w = .ok i ∧ i.format = .vx128r}.ncard = 2 * 2 ^ 21

/-- R51: the encoder's words are the formulas of the spec, decode of an encoded well-formed instruction returns it, and
encode of a decoded word returns the word. -/
def Obligations.EncodeAndDecodeAreInverse : Prop :=
  (∀ (d a b : VReg) (rc : Bool), d.val < 32 → a.val < 32 → b.val < 32 →
    (encode (Instr.ofParts .vc rc d a b)).toNat =
      (4 <<< 26) ||| (d.val <<< 21) ||| (a.val <<< 16) ||| (b.val <<< 11) ||| (rc.toNat <<< 10) ||| 134) ∧
  (∀ (d a b : VReg) (rc : Bool),
    (encode (Instr.ofParts .vx128r rc d a b)).toNat =
      (6 <<< 26) ||| ((d.val &&& 31) <<< 21) ||| ((a.val &&& 31) <<< 16) ||| ((b.val &&& 31) <<< 11) |||
        (((a.val >>> 6) &&& 1) <<< 10) ||| (8 <<< 6) ||| (((a.val >>> 5) &&& 1) <<< 5) ||| (rc.toNat <<< 4) |||
        (((d.val >>> 5) &&& 3) <<< 2) ||| ((b.val >>> 5) &&& 3)) ∧
  (∀ i : Instr, i.wf = true → decodeWord (encode i) = .ok i) ∧
  ∀ (w : Word) (i : Instr), decodeWord w = .ok i → i.wf = true ∧ encode i = w

/-- Words of 95_test_vectors.md §2 (E3, E4, E22, E23, E24, M2, M9, M15), each decoding to what its line says. -/
def Obligations.WrittenOutWordsDecode : Prop :=
  decodeWord 0x10400886#32 = .ok (.vcmpequw 2 0 1) ∧ decodeWord 0x10621486#32 = .ok (.vcmpequwRc 3 2 2) ∧
  decodeWord 0x1BFFFE3F#32 = .ok (.vcmpequw128Rc 127 127 127) ∧ decodeWord 0x1800022B#32 = .ok (.vcmpequw128 64 32 96) ∧
  decodeWord 0x188D6E1D#32 = .ok (.vcmpequw128Rc 100 77 45) ∧ decodeWord 0x10000085#32 = .error .notInScope ∧
  decodeWord 0x18000240#32 = .error .notInScope ∧ decodeWord 0x18000400#32 = .error .notInScope

/-- R53 with the operand order of R52: a line assembles exactly when its three numbers are in the range of its mnemonic's
format, spelled either way, and then to a word that decodes to that mnemonic with those numbers. -/
def Obligations.AssemblerRangeAndOperands : Prop :=
  ∀ (f : Format) (rc : Bool) (d a b : OperandText),
    (∀ w, assemble f rc d a b = some w ↔
      ∃ i, decodeWord w = .ok i ∧ i.format = f ∧ i.rc = rc ∧ i.vd.val = d.number ∧ i.va.val = a.number ∧
        i.vb.val = b.number) ∧
    ((assemble f rc d a b).isSome = true ↔ d.number < f.numRegs ∧ a.number < f.numRegs ∧ b.number < f.numRegs) ∧
    Format.numRegs .vc = 32 ∧ Format.numRegs .vx128r = 128

/-- R54: a line assembles exactly to one word of an instruction that its mnemonic spells itself, so nothing is an extended
mnemonic, an alias or a macro; `vcmpequw vD, vA, vA` sets `vD` to all ones; and a record form is a test: whichever scratch
`VD` it is given, CR6 comes out the same and says of the two sources what R61 says, and only the scratch register is lost. -/
def Obligations.NoPseudoInstructionAndTheTwoIdioms : Prop :=
  (∀ (m : String) (d a b : OperandText) (w : Word),
    assembleLine m d a b = some w ↔
      ∃ i, decodeWord w = .ok i ∧ i.mnemonic = m ∧ i.vd.val = d.number ∧ i.va.val = a.number ∧ i.vb.val = b.number) ∧
  (∀ (d a : VReg) (s : State), s.pc.addr + 4 < 2 ^ s.pc.width →
    ∃ t, exec (Instr.allOnesIdiom d a) s = .next t ∧ t.readVr d = BitVec.allOnes 128 ∧ t.cr6 = s.cr6 ∧
      t.pc.addr = s.pc.addr + 4 ∧ UnchangedBut d s t) ∧
  ∀ (f : Format) (d e a b : VReg) (s : State), s.pc.addr + 4 < 2 ^ s.pc.width →
    ∃ t u, exec (Instr.testIdiom f d a b) s = .next t ∧ exec (Instr.testIdiom f e a b) s = .next u ∧ t.cr6 = u.cr6 ∧
      (t.cr6.lt = true ↔ s.readVr a = s.readVr b) ∧
      (t.cr6.eq = true ↔ ∀ k, lane (s.readVr a) k ≠ lane (s.readVr b) k) ∧
      t.pc.addr = s.pc.addr + 4 ∧ UnchangedBut d s t

/-! ### The instructions (40_vector_compare.md) -/

/-- R60: each lane of the result is all ones when that lane of the two sources agrees, else zero. -/
def Obligations.CompareIsLaneByLane : Prop :=
  ∀ (a b : Vec128) (i : Fin 4),
    lane (cmpEqW a b) i = if lane a i = lane b i then 0xFFFFFFFF#32 else 0x00000000#32

/-- R61: the four bits of CR6 from the lanes of the result, what they say of the operands, and the only three values. -/
def Obligations.ConditionFieldFromMask : Prop :=
  (∀ r : Vec128,
    ((cr6FromMask r).lt = true ↔ ∀ i, lane r i = 0xFFFFFFFF#32) ∧ (cr6FromMask r).gt = false ∧
    ((cr6FromMask r).eq = true ↔ ∀ i, lane r i = 0x00000000#32) ∧ (cr6FromMask r).so = false ∧
    ((cr6FromMask r).toBits = 0b1000#4 ∨ (cr6FromMask r).toBits = 0b0010#4 ∨ (cr6FromMask r).toBits = 0b0000#4)) ∧
  ∀ a b : Vec128,
    ((cr6FromMask (cmpEqW a b)).lt = true ↔ ∀ i, lane a i = lane b i) ∧
    ((cr6FromMask (cmpEqW a b)).eq = true ↔ ∀ i, lane a i ≠ lane b i)

/-- R62: `vcmpequw VD, VA, VB`: its word, its whole effect with the frame, and the worked example. -/
def Obligations.VcmpequwEffect : Prop :=
  (∀ (d a b : VReg), d.val < 32 → a.val < 32 → b.val < 32 →
    (encode (.vcmpequw d a b)).toNat = 0x10000086 ||| d.val <<< 21 ||| a.val <<< 16 ||| b.val <<< 11) ∧
  (∀ (d a b : VReg) (s : State), s.pc.addr + 4 < 2 ^ s.pc.width →
    ∃ t, exec (.vcmpequw d a b) s = .next t ∧ t.readVr d = cmpEqW (s.readVr a) (s.readVr b) ∧ t.cr6 = s.cr6 ∧
      t.pc.addr = s.pc.addr + 4 ∧ UnchangedBut d s t) ∧
  encode (.vcmpequw 2 0 1) = 0x10400886#32 ∧
  cmpEqW 0x00000001000000020000000300000004#128 0x00000001000000000000000300000005#128 =
    0xFFFFFFFF00000000FFFFFFFF00000000#128

/-- R63: `vcmpequw. VD, VA, VB`: as R62, and CR6 from the result; the worked example for any `vr[2]`. -/
def Obligations.VcmpequwRecordEffect : Prop :=
  (∀ (d a b : VReg), d.val < 32 → a.val < 32 → b.val < 32 →
    (encode (.vcmpequwRc d a b)).toNat = 0x10000486 ||| d.val <<< 21 ||| a.val <<< 16 ||| b.val <<< 11) ∧
  (∀ (d a b : VReg) (s : State), s.pc.addr + 4 < 2 ^ s.pc.width →
    ∃ t, exec (.vcmpequwRc d a b) s = .next t ∧ t.readVr d = cmpEqW (s.readVr a) (s.readVr b) ∧
      t.cr6 = cr6FromMask (cmpEqW (s.readVr a) (s.readVr b)) ∧ t.pc.addr = s.pc.addr + 4 ∧ UnchangedBut d s t) ∧
  encode (.vcmpequwRc 3 2 2) = 0x10621486#32 ∧
  ∀ s t : State, exec (.vcmpequwRc 3 2 2) s = .next t →
    t.readVr 3 = BitVec.allOnes 128 ∧ t.cr6 = ⟨true, false, false, false⟩ ∧ t.pc.addr = s.pc.addr + 4

/-- R64: `vcmpequw128 VD, VA, VB`: its word, its whole effect with the frame, the same effect as R62's for the same
numbers, and the worked example. -/
def Obligations.Vcmpequw128Effect : Prop :=
  (∀ (d a b : VReg),
    (encode (.vcmpequw128 d a b)).toNat =
      (6 <<< 26) ||| ((d.val &&& 31) <<< 21) ||| ((a.val &&& 31) <<< 16) ||| ((b.val &&& 31) <<< 11) |||
        (((a.val >>> 6) &&& 1) <<< 10) ||| (8 <<< 6) ||| (((a.val >>> 5) &&& 1) <<< 5) |||
        (((d.val >>> 5) &&& 3) <<< 2) ||| ((b.val >>> 5) &&& 3)) ∧
  (∀ (d a b : VReg) (s : State), s.pc.addr + 4 < 2 ^ s.pc.width →
    ∃ t, exec (.vcmpequw128 d a b) s = .next t ∧ t.readVr d = cmpEqW (s.readVr a) (s.readVr b) ∧ t.cr6 = s.cr6 ∧
      t.pc.addr = s.pc.addr + 4 ∧ UnchangedBut d s t) ∧
  (∀ s : State, exec (.vcmpequw128 2 0 1) s = exec (.vcmpequw 2 0 1) s) ∧
  encode (.vcmpequw128 64 32 96) = 0x1800022B#32 ∧
  cmpEqW 0xDEADBEEF00000000800000007FFFFFFF#128 0xDEADBEEF00000001000000007FFFFFFF#128 =
    0xFFFFFFFF0000000000000000FFFFFFFF#128

/-- R65: `vcmpequw128. VD, VA, VB`: as R64, and CR6 from the result; the worked example. -/
def Obligations.Vcmpequw128RecordEffect : Prop :=
  (∀ (d a b : VReg),
    (encode (.vcmpequw128Rc d a b)).toNat =
      (6 <<< 26) ||| ((d.val &&& 31) <<< 21) ||| ((a.val &&& 31) <<< 16) ||| ((b.val &&& 31) <<< 11) |||
        (((a.val >>> 6) &&& 1) <<< 10) ||| (8 <<< 6) ||| (((a.val >>> 5) &&& 1) <<< 5) ||| (1 <<< 4) |||
        (((d.val >>> 5) &&& 3) <<< 2) ||| ((b.val >>> 5) &&& 3)) ∧
  (∀ (d a b : VReg) (s : State), s.pc.addr + 4 < 2 ^ s.pc.width →
    ∃ t, exec (.vcmpequw128Rc d a b) s = .next t ∧ t.readVr d = cmpEqW (s.readVr a) (s.readVr b) ∧
      t.cr6 = cr6FromMask (cmpEqW (s.readVr a) (s.readVr b)) ∧ t.pc.addr = s.pc.addr + 4 ∧ UnchangedBut d s t) ∧
  encode (.vcmpequw128Rc 100 77 45) = 0x188D6E1D#32 ∧
  ∀ s t : State, s.readVr 77 = 0x00000000000000010000000200000003#128 →
    s.readVr 45 = 0x00000004000000050000000600000007#128 → exec (.vcmpequw128Rc 100 77 45) s = .next t →
    t.readVr 100 = 0#128 ∧ t.cr6 = ⟨false, false, true, false⟩ ∧ t.pc.addr = s.pc.addr + 4

/-- R66: any registers may coincide, and the comparison uses the values before the instruction. -/
def Obligations.AliasingUsesTheOldValues : Prop :=
  ∀ (i : Instr) (s t : State), exec i s = .next t →
    t.readVr i.vd = cmpEqW (s.readVr i.va) (s.readVr i.vb) ∧
    (i.va = i.vb → t.readVr i.vd = BitVec.allOnes 128 ∧ (i.rc = true → t.cr6 = ⟨true, false, false, false⟩)) ∧
    (i.vd = i.va → i.va ≠ i.vb →
      t.readVr i.va = cmpEqW (s.readVr i.va) (s.readVr i.vb) ∧ t.readVr i.vb = s.readVr i.vb) ∧
    (i.vd = i.vb → i.vb ≠ i.va →
      t.readVr i.vb = cmpEqW (s.readVr i.va) (s.readVr i.vb) ∧ t.readVr i.va = s.readVr i.va)

/-- R67: the comparison is equality of 32-bit patterns: a lane is all ones exactly when the 32 bits agree, the two zeros of
a float differ, a NaN pattern equals itself, and the relation is reflexive and symmetric. -/
def Obligations.ComparisonIsPatternEquality : Prop :=
  (∀ (a b : Vec128) (i : Fin 4),
    (lane (cmpEqW a b) i = 0xFFFFFFFF#32 ↔ ∀ k < 32, (lane a i).getLsbD k = (lane b i).getLsbD k) ∧
    (lane (cmpEqW a b) i = 0x00000000#32 ↔ ∃ k < 32, (lane a i).getLsbD k ≠ (lane b i).getLsbD k) ∧
    (lane a i = 0x00000000#32 → lane b i = 0x80000000#32 → lane (cmpEqW a b) i = 0x00000000#32) ∧
    (lane a i = 0x7FC00000#32 → lane b i = 0x7FC00000#32 → lane (cmpEqW a b) i = 0xFFFFFFFF#32)) ∧
  (∀ a : Vec128, cmpEqW a a = BitVec.allOnes 128) ∧
  ∀ a b : Vec128, cmpEqW a b = cmpEqW b a

/-- R69 (a), (e): the result is a mask; compared with all ones a mask is itself, compared with zero its complement. -/
def Obligations.MaskLaws : Prop :=
  (∀ a b : Vec128, IsMask (cmpEqW a b)) ∧
  ∀ m : Vec128, IsMask m → cmpEqW m (BitVec.allOnes 128) = m ∧ cmpEqW m 0#128 = ~~~m

/-- R69 (c), (d): after a record form CR6 is legal, `lt` says that the two source registers were equal, and `eq` that they
differed in every lane. -/
def Obligations.RecordFormComparesRegisters : Prop :=
  ∀ (i : Instr) (s t : State), i.rc = true → exec i s = .next t →
    t.cr6.Legal ∧ (t.cr6.lt = true ↔ s.readVr i.va = s.readVr i.vb) ∧
      (t.cr6.eq = true ↔ ∀ k, lane (s.readVr i.va) k ≠ lane (s.readVr i.vb) k)

/-- R69 (f): permuting the lanes of both sources permutes those of the result and leaves CR6 alone. -/
def Obligations.LanePermutationCommutes : Prop :=
  ∀ (σ : Equiv.Perm (Fin 4)) (a b : Vec128),
    cmpEqW (permuteLanes σ a) (permuteLanes σ b) = permuteLanes σ (cmpEqW a b) ∧
      cr6FromMask (cmpEqW (permuteLanes σ a) (permuteLanes σ b)) = cr6FromMask (cmpEqW a b)

/-- R69 (g), (h): with the same operand numbers the record form differs from the plain form in CR6 only, and the two
formats do the same to all state. -/
def Obligations.FormsAgreeOnTheSameOperands : Prop :=
  ∀ (f g : Format) (d a b : VReg) (s : State),
    (∀ rc, exec (Instr.ofParts f rc d a b) s = exec (Instr.ofParts g rc d a b) s) ∧
    ∀ t, exec (Instr.ofParts f false d a b) s = .next t →
      ∃ u, exec (Instr.ofParts g true d a b) s = .next u ∧ u = { t with cr6 := u.cr6 }

/-! ### A step (60_exceptions.md) -/

/-- R80: no instruction reports a fault for any operands in any state, and every one completes where `pc + 4` fits. -/
def Obligations.NoInstructionFaults : Prop :=
  ∀ (i : Instr) (s : State), (∀ f, exec i s ≠ .fault f) ∧ (∀ r, exec i s = .refused r → r = .pcOverflow) ∧
    ((∃ t, exec i s = .next t) ↔ s.pc.addr + 4 < 2 ^ s.pc.width)

/-- R82: a word that matches none of the patterns is refused, not reported as a fault; a refusal is kept for the whole run: a
run that meets a refused step after any number of steps is refused with it, and stays refused at every later length. -/
def Obligations.ForeignWordsAreRefused : Prop :=
  (∀ (s : State) (w : Word), s.endPc ≠ some s.pc.addr → s.fetch = some w → w &&& 0xFC0003FF#32 ≠ 0x10000086#32 →
    w &&& 0xFC0003C0#32 ≠ 0x18000200#32 → step s = .refused .notInScope) ∧
  (∀ (n m : Nat) (s t : State) (r : Refusal), run n s = .next t → step t = .refused r →
    run (n + 1 + m) s = .refused r) ∧
  ∀ (n m : Nat) (s : State) (r : Refusal), run n s = .refused r → run (n + m) s = .refused r

/-- The order of the checks of a step and which outcome it reports, as R88 has them; that the end of the run, where R88 says
only that no step is taken, is reported as the fault `runEnded` is the model's choice (log 8, DESIGN CHOICE). -/
def Obligations.OrderOfChecksInAStep : Prop :=
  ∀ s : State,
    (s.endPc = some s.pc.addr → step s = .fault .runEnded) ∧
    (s.endPc ≠ some s.pc.addr →
      (¬ Admitted s → step s = .refused .fetchNotAdmitted) ∧
      ∀ w, s.fetch = some w →
        (decodeWord w = .error .notInScope → step s = .refused .notInScope) ∧
        ∀ i, decodeWord w = .ok i →
          (2 ^ s.pc.width ≤ s.pc.addr + 4 → step s = .refused .pcOverflow) ∧
          (s.pc.addr + 4 < 2 ^ s.pc.width → ∃ t, exec i s = .next t ∧ step s = .next t))

/-- Where the run has not ended and the four bytes of program text at an aligned `pc` decode to an instruction, a step is
that instruction's meaning at that state, with nothing added around it. -/
def Obligations.StepRunsTheDecodedInstruction : Prop :=
  ∀ (s : State) (b0 b1 b2 b3 : Byte) (rest : List Byte) (i : Instr),
    s.endPc ≠ some s.pc.addr → s.pc.addr % 4 = 0 → (∀ k < 4, s.inCode (s.pc.addr + k) = true) →
    s.mem.read s.pc.addr = some b0 → s.mem.read (s.pc.addr + 1) = some b1 → s.mem.read (s.pc.addr + 2) = some b2 →
    s.mem.read (s.pc.addr + 3) = some b3 → decodeBytes (b0 :: b1 :: b2 :: b3 :: rest) = .ok (i, rest) →
    i.wf = true ∧ step s = exec i s

/-! ### Whole-machine statements (40_vector_compare.md §3, 70_reset_and_hazards.md) -/

/-- R22, R37, R71 over all instructions: a step writes one vector register, with a mask, advances `pc` by 4, leaves CR6 or
makes it legal, and changes nothing else; program text and the arguments of the model stay for the whole run. -/
def Obligations.StepChangesOneRegisterPcAndCr6 : Prop :=
  ∀ s t : State, step s = .next t →
    ∃ d, UnchangedBut d s t ∧ IsMask (t.readVr d) ∧ t.pc.addr = s.pc.addr + 4 ∧ (t.cr6 = s.cr6 ∨ t.cr6.Legal)

/-- The invariant: canonical memory, aligned `pc`, legal CR6. -/
def Obligations.StepKeepsTheInvariant : Prop :=
  ∀ s t : State, Inv s → step s = .next t → Inv t

/-- The invariant holds at reset. That it does rests on the model's choices of log 2, 3 and 7, not on a rule. -/
def Obligations.ResetMeetsTheInvariant : Prop := Inv State.reset

/-- What the model's reset leaves, every value the model's own (log 1, 2, 3, 7, 8, 9; no rule): each field at the value the log
names, nothing admitted to fetch, and the first step refused until a host has loaded a program. -/
def Obligations.ResetHoldsNamedValuesAndNoProgram : Prop :=
  (∀ n, State.reset.readVr n = 0#128) ∧ State.reset.cr6 = ⟨false, false, false, false⟩ ∧
    State.reset.pc.addr = 0 ∧ State.reset.pc.width = 32 ∧
    (∀ a, State.reset.mem.read a = none) ∧ (∀ a, State.reset.inCode a = false) ∧ State.reset.endPc = none ∧
    (∀ n, State.reset.other.crFields.read n = 0 ∧ State.reset.other.gpr.read n = 0 ∧ State.reset.other.fpr.read n = 0) ∧
    State.reset.other.vscr = 0 ∧ State.reset.other.xer = ⟨false, false, false, 0⟩ ∧
    (∀ a, State.reset.fetchAt a = none) ∧ step State.reset = .refused .fetchNotAdmitted

/-- Registers that hold masks go on holding masks: over a file of masks, every step leaves a file of masks. -/
def Obligations.StepKeepsAFileOfMasks : Prop :=
  ∀ s t : State, (∀ n, IsMask (s.readVr n)) → step s = .next t → ∀ n, IsMask (t.readVr n)

/-- R92: a result is what the very next instruction reads, as either source and through either format, and a CR6 it wrote
stays for the next where that does not write one. -/
def Obligations.ResultIsVisibleToTheNextInstruction : Prop :=
  ∀ (i j : Instr) (s t u : State), exec i s = .next t → exec j t = .next u →
    (j.va = i.vd → u.readVr j.vd = cmpEqW (cmpEqW (s.readVr i.va) (s.readVr i.vb)) (t.readVr j.vb)) ∧
    (j.vb = i.vd → u.readVr j.vd = cmpEqW (t.readVr j.va) (cmpEqW (s.readVr i.va) (s.readVr i.vb))) ∧
    (i.rc = true → j.rc = false → u.cr6 = cr6FromMask (cmpEqW (s.readVr i.va) (s.readVr i.vb)))

/-- R94: in-scope words in a row under the launch premises, with no end among them, are passed in exactly as many steps:
the run reaches the word after them, and its text is unchanged. -/
def Obligations.InScopeWordsTakeOneStepEach : Prop :=
  ∀ (prog : List Word) (s : State), Launched s prog → AllInScope prog →
    (∀ k < prog.length, s.endPc ≠ some (s.pc.addr + 4 * k)) →
    ∃ t, run prog.length s = .next t ∧ t.pc.addr = s.pc.addr + 4 * prog.length ∧ t.pc.width = s.pc.width ∧
      t.mem = s.mem ∧ t.code = s.code ∧ t.endPc = s.endPc ∧ t.other = s.other

/-- The end of a run as R95 has it, reported as the fault `runEnded`, which is the model's choice (log 8, DESIGN CHOICE): a run
ends exactly when `pc` equals `end_pc`, and the word there is not fetched: the stop is the same whatever memory and
CodeRegion hold; a run of in-scope words in a row whose end is the word after them ends there, and no sooner. -/
def Obligations.RunEndsAtEndPc : Prop :=
  (∀ s : State, (∃ f, step s = .fault f) ↔ s.endPc = some s.pc.addr) ∧
  (∀ (s : State) (m : Memory) (c : List CodeRange), s.endPc = some s.pc.addr →
    step { s with mem := m, code := c } = .fault .runEnded) ∧
  ∀ (prog : List Word) (s : State), Launched s prog → AllInScope prog →
    s.endPc = some (s.pc.addr + 4 * prog.length) →
    (∀ k ≤ prog.length, ∃ t, run k s = .next t ∧ t.pc.addr = s.pc.addr + 4 * k) ∧
      run (prog.length + 1) s = .fault .runEnded

/-- R14, R17, R18 over whole runs: two runs that start from the same vector registers, `pc`, memory and arguments but any
CR6 and any other registers stay alike, step for step, and stop alike. -/
def Obligations.RunsDoNotDependOnUnreadState : Prop :=
  ∀ (n : Nat) (s s' : State), AgreeOnRead s s' →
    (∀ t, run n s = .next t → ∃ t', run n s' = .next t' ∧ AgreeOnRead t t') ∧
    (∀ f, run n s = .fault f → run n s' = .fault f) ∧
    (∀ r, run n s = .refused r → run n s' = .refused r)
end

