-- ==== Sys2Proof/Laws/Encoding.lean ====
section
/-! SUPPORT. The bits of encoded words and of decoded fields, counted from the least significant end; the assembler's
mnemonics. -/

namespace Sys2Proof

/-- The bits of a field, counted from the right in the field and in the word. -/
theorem getLsbD_field (w : Word) (a n k : Nat) :
    (field w a n).getLsbD k = (decide (k < n) && w.getLsbD (32 - a - n + k)) := by
  simp [field]

/-- The bits of a word of format `VC`, field by field from the right. -/
theorem getLsbD_encodeVc (vd va vb : VReg) (rc : BitVec 1) (j : Nat) :
    (encodeVc vd va vb rc).getLsbD j =
      if j < 10 then Config.xoVc.getLsbD j
      else if j < 11 then rc.getLsbD (j - 10)
      else if j < 16 then (vregLow vb).getLsbD (j - 11)
      else if j < 21 then (vregLow va).getLsbD (j - 16)
      else if j < 26 then (vregLow vd).getLsbD (j - 21)
      else Config.opcdVc.getLsbD (j - 26) := by
  change BitVec.getLsbD (w := 6 + 5 + 5 + 5 + 1 + 10) _ j = _
  simp only [encodeVc]
  rw [BitVec.getLsbD_append, BitVec.getLsbD_append, BitVec.getLsbD_append, BitVec.getLsbD_append, BitVec.getLsbD_append]
  split_ifs <;> first | omega | (congr 1; try omega)

/-- The bits of a word of format `VX128_R`, field by field from the right. -/
theorem getLsbD_encodeVx128 (vd va vb : VReg) (rc : BitVec 1) {j : Nat} (hj : j < 32) :
    (encodeVx128 vd va vb rc).getLsbD j =
      if j < 2 then (vregHigh vb).getLsbD j
      else if j < 4 then (vregHigh vd).getLsbD (j - 2)
      else if j < 5 then rc.getLsbD (j - 4)
      else if j < 6 then (vregBit va 5).getLsbD (j - 5)
      else if j < 10 then Config.xoVx128.getLsbD (j - 6)
      else if j < 11 then (vregBit va 6).getLsbD (j - 10)
      else if j < 16 then (vregLow vb).getLsbD (j - 11)
      else if j < 21 then (vregLow va).getLsbD (j - 16)
      else if j < 26 then (vregLow vd).getLsbD (j - 21)
      else Config.opcdVx128.getLsbD (j - 26) := by
  change BitVec.getLsbD (w := 6 + 5 + 5 + 5 + 1 + 4 + 1 + 1 + 2 + 2) _ j = _
  simp only [encodeVx128]
  rw [BitVec.getLsbD_append, BitVec.getLsbD_append, BitVec.getLsbD_append, BitVec.getLsbD_append, BitVec.getLsbD_append,
    BitVec.getLsbD_append, BitVec.getLsbD_append, BitVec.getLsbD_append, BitVec.getLsbD_append]
  interval_cases j <;> rfl

/-- The mnemonics of the assembler are those of the instructions: one stands for a format and `Rc` exactly when it is the
spelling of every instruction with them (30_encoding.md R52, R54). -/
theorem readMnemonic_eq_some {m : String} {f : Format} {rc : Bool} (d a b : VReg) :
    readMnemonic m = some (f, rc) ↔ (Instr.ofParts f rc d a b).mnemonic = m := by
  unfold readMnemonic
  split_ifs with h1 h2 h3 h4 <;> cases f <;> cases rc <;> simp_all [Instr.ofParts, Instr.mnemonic, eq_comm]

end Sys2Proof
end

