-- ==== Sys2Proof/Laws/Memory.lean ====
section
/-! SUPPORT. Reading after writing, and that every memory operation keeps the canonical form. -/

namespace Sys2Proof.Machine

theorem Memory.read_write_same (m : Memory) (a : Nat) (v : Byte) : (m.write a v).read a = some v := by
  induction m with
  | nil => simp [Memory.write, Memory.read]
  | cons c m ih =>
    simp only [Memory.write]
    split_ifs <;> simp_all [Memory.read]

theorem Memory.read_write_other (m : Memory) {a b : Nat} (v : Byte) (h : b ≠ a) : (m.write a v).read b = m.read b := by
  induction m with
  | nil => simp [Memory.write, Memory.read, h]
  | cons c m ih =>
    simp only [Memory.write]
    split_ifs <;> simp_all [Memory.read]

/-- The addresses of a memory after a write: the old ones and the one written. -/
theorem Memory.mem_write {m : Memory} {a : Nat} {v : Byte} {c : Host.Cell} (h : c ∈ m.write a v) :
    c = (a, v) ∨ c ∈ m := by
  induction m with
  | nil => simpa [Memory.write] using h
  | cons d m ih =>
    simp only [Memory.write] at h
    split_ifs at h <;> simp only [List.mem_cons] at h ⊢ <;> tauto

theorem Memory.write_wf {m : Memory} (a : Nat) (v : Byte) (h : m.wf = true) : (m.write a v).wf = true := by
  simp only [Memory.wf, decide_eq_true_eq] at h ⊢
  induction m with
  | nil => simp [Memory.write]
  | cons d m ih =>
    obtain ⟨hd, hm⟩ := List.pairwise_cons.mp h
    simp only [Memory.write]
    split_ifs with h1 h2
    · refine List.pairwise_cons.mpr ⟨fun c hc => ?_, h⟩
      rcases List.mem_cons.mp hc with rfl | hc
      · exact h1
      · exact h1.trans (hd c hc)
    · exact List.pairwise_cons.mpr ⟨fun c hc => h2 ▸ hd c hc, hm⟩
    · refine List.pairwise_cons.mpr ⟨fun c hc => ?_, ih hm⟩
      rcases Memory.mem_write hc with rfl | hc
      · show d.1 < a
        omega
      · exact hd c hc

theorem Memory.writeBytes_wf {m : Memory} (a : Nat) (vs : List Byte) (h : m.wf = true) :
    (m.writeBytes a vs).wf = true := by
  induction vs generalizing m a with
  | nil => exact h
  | cons v vs ih => exact ih _ (Memory.write_wf a v h)

theorem State.placeWord_wf {s : State} (a : Nat) (w : Word) (h : s.mem.wf = true) : (s.placeWord a w).mem.wf = true :=
  Memory.writeBytes_wf a _ h

/-- A byte outside the written run reads as before. -/
theorem Memory.read_writeBytes_outside (m : Memory) {a b : Nat} (vs : List Byte) (h : b < a ∨ a + vs.length ≤ b) :
    (m.writeBytes a vs).read b = m.read b := by
  induction vs generalizing m a with
  | nil => rfl
  | cons v vs ih =>
    simp only [List.length_cons] at h
    rw [Memory.writeBytes, ih _ (by omega), Memory.read_write_other _ _ (by omega)]

/-- A byte inside the written run reads as written. -/
theorem Memory.read_writeBytes_inside (m : Memory) (a : Nat) (vs : List Byte) {k : Nat} {v : Byte} (h : vs[k]? = some v) :
    (m.writeBytes a vs).read (a + k) = some v := by
  induction vs generalizing m a k with
  | nil => simp at h
  | cons u vs ih =>
    cases k with
    | zero =>
      obtain rfl : u = v := by simpa using h
      rw [Memory.writeBytes, Memory.read_writeBytes_outside _ _ (by omega)]
      exact Memory.read_write_same m a u
    | succ k =>
      rw [Memory.writeBytes, show a + (k + 1) = a + 1 + k by omega]
      exact ih _ _ (by simpa using h)

end Sys2Proof.Machine
end

