-- ==== Sys2Proof/Laws/Operands.lean ====
section
/-! SUPPORT. What the lane view does: a vector is its four lanes. -/

namespace Sys2Proof.Machine

/-- The bits of a vector put together from its lanes. -/
theorem getLsbD_ofLanes (l0 l1 l2 l3 : Word) (j : Nat) :
    (ofLanes l0 l1 l2 l3).getLsbD j =
      if j < 32 then l3.getLsbD j else if j < 64 then l2.getLsbD (j - 32)
      else if j < 96 then l1.getLsbD (j - 64) else l0.getLsbD (j - 96) := by
  change BitVec.getLsbD (w := 32 + 32 + 32 + 32) _ j = _
  simp only [ofLanes]
  rw [BitVec.getLsbD_append, BitVec.getLsbD_append, BitVec.getLsbD_append]
  split_ifs <;> first | omega | (congr 1; try omega)

/-- The bits of a lane. -/
theorem getLsbD_lane (v : Vec128) (i : Fin 4) {k : Nat} (h : k < 32) :
    (lane v i).getLsbD k = v.getLsbD (96 - 32 * i.val + k) := by
  simp [lane, h]

@[simp] theorem lane_ofLanes_zero (l0 l1 l2 l3 : Word) : lane (ofLanes l0 l1 l2 l3) 0 = l0 := by
  refine BitVec.eq_of_getLsbD_eq fun j hj => ?_
  rw [getLsbD_lane _ _ hj, getLsbD_ofLanes]
  simp [show ¬ 96 + j < 32 by omega, show ¬ 96 + j < 64 by omega]

@[simp] theorem lane_ofLanes_one (l0 l1 l2 l3 : Word) : lane (ofLanes l0 l1 l2 l3) 1 = l1 := by
  refine BitVec.eq_of_getLsbD_eq fun j hj => ?_
  rw [getLsbD_lane _ _ hj, getLsbD_ofLanes]
  simp [show 64 + j < 96 by omega, show ¬ 64 + j < 32 by omega]

@[simp] theorem lane_ofLanes_two (l0 l1 l2 l3 : Word) : lane (ofLanes l0 l1 l2 l3) 2 = l2 := by
  refine BitVec.eq_of_getLsbD_eq fun j hj => ?_
  rw [getLsbD_lane _ _ hj, getLsbD_ofLanes]
  simp [show 32 + j < 64 by omega]

@[simp] theorem lane_ofLanes_three (l0 l1 l2 l3 : Word) : lane (ofLanes l0 l1 l2 l3) 3 = l3 := by
  refine BitVec.eq_of_getLsbD_eq fun j hj => ?_
  rw [getLsbD_lane _ _ hj, getLsbD_ofLanes]
  simp [hj]

/-- A property of all four lanes is its four cases. -/
theorem forall_lane {P : Fin 4 → Prop} : (∀ i, P i) ↔ P 0 ∧ P 1 ∧ P 2 ∧ P 3 :=
  ⟨fun h => ⟨h 0, h 1, h 2, h 3⟩, fun ⟨h0, h1, h2, h3⟩ i => by fin_cases i <;> assumption⟩

/-- Two vectors with the same lanes are equal. -/
theorem vec_ext_lanes {v w : Vec128} (h : ∀ i, lane v i = lane w i) : v = w := by
  refine BitVec.eq_of_getLsbD_eq fun j hj => ?_
  have hk : j % 32 < 32 := Nat.mod_lt _ (by decide)
  have e : j = 96 - 32 * (⟨3 - j / 32, by omega⟩ : Fin 4).val + j % 32 := by
    simp only
    omega
  rw [e, ← getLsbD_lane v _ hk, ← getLsbD_lane w _ hk, h]

/-- What the summary of the lanes says. -/
theorem allLanes_iff (x : Word) (r : Vec128) : allLanes x r = true ↔ ∀ i, lane r i = x := by
  simp [allLanes, forall_lane, and_assoc]

end Sys2Proof.Machine
end

