-- ==== Sys2Proof/Laws/State.lean ====
section
/-! SUPPORT. One lemma per field per update of State, and register reads after register writes. -/

namespace Sys2Proof.Machine

@[simp] theorem State.writeVr_cr6 (s : State) (n : VReg) (v : Vec128) : (s.writeVr n v).cr6 = s.cr6 := rfl
@[simp] theorem State.writeVr_pc (s : State) (n : VReg) (v : Vec128) : (s.writeVr n v).pc = s.pc := rfl
@[simp] theorem State.writeVr_mem (s : State) (n : VReg) (v : Vec128) : (s.writeVr n v).mem = s.mem := rfl
@[simp] theorem State.writeVr_code (s : State) (n : VReg) (v : Vec128) : (s.writeVr n v).code = s.code := rfl
@[simp] theorem State.writeVr_endPc (s : State) (n : VReg) (v : Vec128) : (s.writeVr n v).endPc = s.endPc := rfl
@[simp] theorem State.writeVr_other (s : State) (n : VReg) (v : Vec128) : (s.writeVr n v).other = s.other := rfl

@[simp] theorem State.writeCr6_vr (s : State) (c : CrField) : (s.writeCr6 c).vr = s.vr := rfl
@[simp] theorem State.writeCr6_cr6 (s : State) (c : CrField) : (s.writeCr6 c).cr6 = c := rfl
@[simp] theorem State.writeCr6_pc (s : State) (c : CrField) : (s.writeCr6 c).pc = s.pc := rfl
@[simp] theorem State.writeCr6_mem (s : State) (c : CrField) : (s.writeCr6 c).mem = s.mem := rfl
@[simp] theorem State.writeCr6_code (s : State) (c : CrField) : (s.writeCr6 c).code = s.code := rfl
@[simp] theorem State.writeCr6_endPc (s : State) (c : CrField) : (s.writeCr6 c).endPc = s.endPc := rfl
@[simp] theorem State.writeCr6_other (s : State) (c : CrField) : (s.writeCr6 c).other = s.other := rfl

@[simp] theorem State.placeWord_vr (s : State) (a : Nat) (w : Word) : (s.placeWord a w).vr = s.vr := rfl
@[simp] theorem State.placeWord_cr6 (s : State) (a : Nat) (w : Word) : (s.placeWord a w).cr6 = s.cr6 := rfl
@[simp] theorem State.placeWord_pc (s : State) (a : Nat) (w : Word) : (s.placeWord a w).pc = s.pc := rfl
@[simp] theorem State.placeWord_mem (s : State) (a : Nat) (w : Word) :
    (s.placeWord a w).mem = s.mem.writeBytes a (bytesOfWord w) := rfl
@[simp] theorem State.placeWord_code (s : State) (a : Nat) (w : Word) :
    (s.placeWord a w).code = ⟨a, Config.instrBytes⟩ :: s.code := rfl
@[simp] theorem State.placeWord_endPc (s : State) (a : Nat) (w : Word) : (s.placeWord a w).endPc = s.endPc := rfl
@[simp] theorem State.placeWord_other (s : State) (a : Nat) (w : Word) : (s.placeWord a w).other = s.other := rfl

/-- Reads see the register file alone. -/
theorem State.readVr_congr {s t : State} (h : t.vr = s.vr) (n : VReg) : t.readVr n = s.readVr n := by
  simp [State.readVr, h]

@[simp] theorem State.readVr_writeVr_same (s : State) (n : VReg) (v : Vec128) : (s.writeVr n v).readVr n = v := by
  simp [State.readVr, State.writeVr]

theorem State.readVr_writeVr_other (s : State) {m n : VReg} (v : Vec128) (h : n ≠ m) :
    (s.writeVr m v).readVr n = s.readVr n := by
  have h' : (m : Nat) ≠ n := fun e => h (Fin.ext e.symm)
  simp [State.readVr, State.writeVr, Vector.getElem_set_ne, h']

@[simp] theorem State.readVr_writeCr6 (s : State) (c : CrField) (n : VReg) : (s.writeCr6 c).readVr n = s.readVr n := rfl

end Sys2Proof.Machine
end

