-- ==== Sys2Proof/Laws/Ops.lean ====
section
/-! SUPPORT. What each shared operation can do, and what a step can do. -/

namespace Sys2Proof.Machine

/-- Everything the advance of `pc` can do. -/
theorem Pc.next_cases (p : Pc) :
    (∃ q, p.next = some q ∧ q.addr = p.addr + 4 ∧ q.width = p.width ∧ p.addr + 4 < 2 ^ p.width) ∨
      (p.next = none ∧ 2 ^ p.width ≤ p.addr + 4) := by
  cases p with
  | w32 a =>
    by_cases h : a.toNat + 4 < 2 ^ 32
    · refine .inl ⟨_, if_pos h, ?_, rfl, h⟩
      simpa [Pc.addr, Config.instrBytes] using h
    · exact .inr ⟨if_neg h, not_lt.mp h⟩
  | w64 a =>
    by_cases h : a.toNat + 4 < 2 ^ 64
    · refine .inl ⟨_, if_pos h, ?_, rfl, h⟩
      simpa [Pc.addr, Config.instrBytes] using h
    · exact .inr ⟨if_neg h, not_lt.mp h⟩

/-- An address always fits in its width. -/
theorem Pc.addr_lt (p : Pc) : p.addr < 2 ^ p.width := by
  cases p <;> exact BitVec.isLt _

/-- The state an instruction leaves when `pc` advances to `p`: one equation for the four meanings. -/
def result (i : Instr) (s : State) (p : Pc) : State :=
  { s.writeVr i.vd (compareMask i.va i.vb s) with
    cr6 := if i.rc then cr6FromMask (compareMask i.va i.vb s) else s.cr6
    pc := p }

@[simp] theorem result_cr6 (i : Instr) (s : State) (p : Pc) :
    (result i s p).cr6 = if i.rc then cr6FromMask (compareMask i.va i.vb s) else s.cr6 := rfl
@[simp] theorem result_pc (i : Instr) (s : State) (p : Pc) : (result i s p).pc = p := rfl
@[simp] theorem result_mem (i : Instr) (s : State) (p : Pc) : (result i s p).mem = s.mem := rfl
@[simp] theorem result_code (i : Instr) (s : State) (p : Pc) : (result i s p).code = s.code := rfl
@[simp] theorem result_endPc (i : Instr) (s : State) (p : Pc) : (result i s p).endPc = s.endPc := rfl
@[simp] theorem result_other (i : Instr) (s : State) (p : Pc) : (result i s p).other = s.other := rfl

theorem result_readVr_vd (i : Instr) (s : State) (p : Pc) :
    (result i s p).readVr i.vd = compareMask i.va i.vb s :=
  State.readVr_writeVr_same s _ _

theorem result_readVr_other (i : Instr) (s : State) (p : Pc) {n : VReg} (h : n ≠ i.vd) :
    (result i s p).readVr n = s.readVr n :=
  State.readVr_writeVr_other s _ h

/-- Everything an instruction can do: it answers its result, or refuses because `pc` cannot advance. -/
theorem exec_eq (i : Instr) (s : State) :
    exec i s = match s.pc.next with
      | some p => .next (result i s p)
      | none => .refused .pcOverflow := by
  cases i <;>
    simp only [exec, execVcmpequw, execVcmpequwRc, execVcmpequw128, execVcmpequw128Rc, State.retire,
      State.writeVr_pc, State.writeCr6_pc] <;>
    cases s.pc.next <;> rfl

/-- A next state of an instruction is its result. -/
theorem exec_next {i : Instr} {s t : State} (h : exec i s = .next t) :
    ∃ p, s.pc.next = some p ∧ t = result i s p := by
  rw [exec_eq] at h
  split at h
  · exact ⟨_, ‹_›, by simpa using h.symm⟩
  · cases h

/-- A next state of a step is that of the instruction it fetched and decoded. -/
theorem step_next {s t : State} (h : step s = .next t) :
    s.ended = false ∧ ∃ w i, s.fetch = some w ∧ decodeWord w = .ok i ∧ exec i s = .next t := by
  unfold step at h
  split_ifs at h with he
  refine ⟨by simpa using he, ?_⟩
  split at h
  · cases h
  · rename_i w hw
    split at h
    · cases h
    · rename_i i hi
      exact ⟨w, i, hw, hi, h⟩

/-- Fetch answers exactly when the address is aligned and its four bytes are program text. -/
theorem fetchAt_eq_some {s : State} {a : Nat} {w : Word} :
    s.fetchAt a = some w ↔ a % 4 = 0 ∧ ∃ b0 b1 b2 b3, s.codeByte a = some b0 ∧ s.codeByte (a + 1) = some b1 ∧
      s.codeByte (a + 2) = some b2 ∧ s.codeByte (a + 3) = some b3 ∧ w = wordOfBytes b0 b1 b2 b3 := by
  unfold State.fetchAt
  by_cases h : a % 4 = 0
  · rw [if_pos h]
    cases s.codeByte a <;> cases s.codeByte (a + 1) <;> cases s.codeByte (a + 2) <;> cases s.codeByte (a + 3) <;>
      simp [h, eq_comm]
  · simp [h]

/-- Fetch sees memory and CodeRegion alone. -/
theorem fetchAt_congr {s t : State} (hm : t.mem = s.mem) (hc : t.code = s.code) (a : Nat) : t.fetchAt a = s.fetchAt a := by
  cases s
  cases t
  cases hm
  cases hc
  rfl

end Sys2Proof.Machine
end

