-- ==== Sys2Proof/Laws/PerInstr.lean ====
section
/-! SUPPORT. Statements for every instruction, one lemma per constructor. Family Opcode: the fixed bits of an instruction's
word are those of its row of the opcode table (30_encoding.md R47). -/

namespace Sys2Proof.Laws.Opcode

/-- The mask of an instruction's row (R47). -/
def mask (i : Instr) : Word :=
  match i.format with
  | .vc => 0xFC0007FF#32
  | .vx128r => 0xFC0003D0#32

/-- The match of an instruction's row (R47). -/
def matchWord : Instr → Word
  | .vcmpequw _ _ _ => 0x10000086#32
  | .vcmpequwRc _ _ _ => 0x10000486#32
  | .vcmpequw128 _ _ _ => 0x18000200#32
  | .vcmpequw128Rc _ _ _ => 0x18000210#32

/-- The word of the instruction matches its row. -/
def Statement (i : Instr) : Prop := encode i &&& mask i = matchWord i

/-- Only the fixed fields of a `VC` word survive the mask. -/
theorem encodeVc_fixed (vd va vb : VReg) (rc : BitVec 1) :
    encodeVc vd va vb rc &&& 0xFC0007FF#32 = rc.setWidth 32 <<< 10 ||| 0x10000086#32 := by
  refine BitVec.eq_of_getLsbD_eq fun j hj => ?_
  rw [BitVec.getLsbD_and, getLsbD_encodeVc]
  interval_cases j <;> simp [Config.opcdVc, Config.xoVc]

/-- The same for `VX128_R`. -/
theorem encodeVx128_fixed (vd va vb : VReg) (rc : BitVec 1) :
    encodeVx128 vd va vb rc &&& 0xFC0003D0#32 = rc.setWidth 32 <<< 4 ||| 0x18000200#32 := by
  refine BitVec.eq_of_getLsbD_eq fun j hj => ?_
  rw [BitVec.getLsbD_and, getLsbD_encodeVx128 _ _ _ _ hj]
  interval_cases j <;> simp [Config.opcdVx128, Config.xoVx128]

theorem vcmpequw (vd va vb : VReg) : Statement (.vcmpequw vd va vb) := encodeVc_fixed vd va vb 0#1

theorem vcmpequwRc (vd va vb : VReg) : Statement (.vcmpequwRc vd va vb) := encodeVc_fixed vd va vb 1#1

theorem vcmpequw128 (vd va vb : VReg) : Statement (.vcmpequw128 vd va vb) := encodeVx128_fixed vd va vb 0#1

theorem vcmpequw128Rc (vd va vb : VReg) : Statement (.vcmpequw128Rc vd va vb) := encodeVx128_fixed vd va vb 1#1

end Sys2Proof.Laws.Opcode
end

