-- ==== Sys2Proof/Laws/Run.lean ====
section
/-! SUPPORT. Runs: the host's run of the core is the machine's own, and a run goes on from where a shorter one stands. -/

namespace Sys2Proof.Machine

/-- The host's run of the core is the machine's own. -/
theorem core_run_eq_run (n : Nat) (s : State) : core.run n s = run n s := by
  unfold core
  induction n generalizing s with
  | zero => rfl
  | succ n ih =>
    rw [Host.Core.run, run]
    dsimp only
    cases h : step s with
    | next t => exact ih t
    | fault f => rfl
    | refused r => rfl

/-- A run goes on from where a shorter one stands. -/
theorem run_add {n : Nat} {s t : State} (m : Nat) (h : run n s = .next t) : run (n + m) s = run m t := by
  induction n generalizing s with
  | zero =>
    obtain rfl : s = t := by simpa [run] using h
    rw [Nat.zero_add]
  | succ n ih =>
    rw [show n + 1 + m = n + m + 1 by omega, run]
    rw [run] at h
    cases hs : step s with
    | next u =>
      rw [hs] at h
      exact ih h
    | fault f => rw [hs] at h; cases h
    | refused r => rw [hs] at h; cases h

end Sys2Proof.Machine
end

