-- ==== Sys2Proof/Tests/Slice0.lean ====
section
/-! SUPPORT. The model's own tests. Expected values are the spec's: 95_test_vectors.md (the id of the vector stands beside
each) and the rules named. Then, for each statement with hypotheses, a witness that meets them. -/

namespace Sys2Proof.Tests

open Sys2Proof Sys2Proof.Machine

/-! ### A small state: program P1 at 0x100, with its start values -/

/-- P1's text and start state (95_test_vectors.md §5), with a few more registers for the corner cases K1, K5, K6, K9, K10. -/
def demo : State :=
  { State.reset with
    vr := ((((((State.reset.vr.set 0 0x00000001000000020000000300000004#128).set 1
      0x00000001000000000000000300000005#128).set 4 0xFFFFFFFFFFFFFFFFFFFFFFFF00000000#128).set 10
      0x00000000000000010000000200000003#128).set 11 0x00000004000000050000000600000007#128).set 32
      0xDEADBEEF00000000800000007FFFFFFF#128).set 96 0xDEADBEEF00000001000000007FFFFFFF#128
    cr6 := ⟨false, true, false, true⟩
    pc := .w32 0x100#32
    mem := [(0x100, 0x10#8), (0x101, 0x40#8), (0x102, 0x08#8), (0x103, 0x86#8),
      (0x104, 0x10#8), (0x105, 0x62#8), (0x106, 0x14#8), (0x107, 0x86#8)]
    code := [⟨0x100, 8⟩]
    endPc := some 0x108 }

/-- The two words of P1. -/
def prog : List Word := [0x10400886#32, 0x10621486#32]

/-- The state after an outcome, where there is one. -/
def after : Host.Outcome State Fault Refusal → Option State
  | .next t => some t
  | _ => none

/-- What a test looks at: a register, CR6 and the address of the next word. -/
def view (n : VReg) (o : Host.Outcome State Fault Refusal) : Option (Vec128 × BitVec 4 × Nat) :=
  (after o).map fun t => (t.readVr n, t.cr6.toBits, t.pc.addr)

/-- The refusal of an outcome. -/
def refusal : Host.Outcome State Fault Refusal → Option Refusal
  | .refused r => some r
  | _ => none

/-- The fault of an outcome. -/
def fault : Host.Outcome State Fault Refusal → Option Fault
  | .fault f => some f
  | _ => none

/-! ### Well-formedness (R53): each check refuses an ill-formed term, and the boundary passes -/

theorem test_illformed_vcmpequw_vd : (Instr.vcmpequw 32 0 0).wf = false := by decide
theorem test_illformed_vcmpequw_va : (Instr.vcmpequw 0 32 0).wf = false := by decide
theorem test_illformed_vcmpequw_vb : (Instr.vcmpequw 0 0 32).wf = false := by decide
theorem test_illformed_vcmpequwRc_vd : (Instr.vcmpequwRc 127 0 0).wf = false := by decide
theorem test_illformed_vcmpequwRc_va : (Instr.vcmpequwRc 0 64 0).wf = false := by decide
theorem test_illformed_vcmpequwRc_vb : (Instr.vcmpequwRc 0 0 32).wf = false := by decide
theorem test_wellformed_boundaries :
    (Instr.vcmpequw 31 31 31).wf = true ∧ (Instr.vcmpequwRc 31 31 31).wf = true ∧
      (Instr.vcmpequw128 127 127 127).wf = true ∧ (Instr.vcmpequw128Rc 127 127 127).wf = true := by decide

/-! ### Decoding words written out from the tables of R41 and R42 -/

/-- E1, E2, and E8 to E10, which isolate each register field. -/
theorem test_decode_vc :
    decodeWord 0b00010000000000000000000010000110#32 = .ok (.vcmpequw 0 0 0) ∧
    decodeWord 0b00010000000000000000010010000110#32 = .ok (.vcmpequwRc 0 0 0) ∧
    decodeWord 0b00010011111000000000000010000110#32 = .ok (.vcmpequw 31 0 0) ∧
    decodeWord 0b00010000000111110000000010000110#32 = .ok (.vcmpequw 0 31 0) ∧
    decodeWord 0b00010000000000001111100010000110#32 = .ok (.vcmpequw 0 0 31) := by decide

/-- E20, E21, E27, E28, E29: `Rc` and the pieces of `VD`. -/
theorem test_decode_vx128_vd :
    decodeWord 0b00011000000000000000001000000000#32 = .ok (.vcmpequw128 0 0 0) ∧
    decodeWord 0b00011000000000000000001000010000#32 = .ok (.vcmpequw128Rc 0 0 0) ∧
    decodeWord 0b00011011111000000000001000000000#32 = .ok (.vcmpequw128 31 0 0) ∧
    decodeWord 0b00011000000000000000001000000100#32 = .ok (.vcmpequw128 32 0 0) ∧
    decodeWord 0b00011000000000000000001000001000#32 = .ok (.vcmpequw128 64 0 0) := by decide

/-- E31, E32, E34, E35: the pieces of `VA` and `VB`. -/
theorem test_decode_vx128_sources :
    decodeWord 0b00011000000000000000001000100000#32 = .ok (.vcmpequw128 0 32 0) ∧
    decodeWord 0b00011000000000000000011000000000#32 = .ok (.vcmpequw128 0 64 0) ∧
    decodeWord 0b00011000000000000000001000000001#32 = .ok (.vcmpequw128 0 0 32) ∧
    decodeWord 0b00011000000000000000001000000010#32 = .ok (.vcmpequw128 0 0 64) := by decide

/-- M1 to M20: none of them is an instruction in scope. -/
theorem test_near_misses :
    ([0x10000087, 0x10000085, 0x10000006, 0x10000046, 0x100000C6, 0x10000286, 0x14000086, 0x0C000086, 0x18000240,
      0x18000100, 0x18000000, 0x18000280, 0x18000300, 0x180003C0, 0x18000400, 0x1C000200, 0x14000200, 0x00000000,
      0xFFFFFFFF, 0x60000000].all fun w => decide (decodeWord (BitVec.ofNat 32 w) = .error .notInScope)) = true := by
  decide

/-- E24, E37, E38 encoded. -/
theorem test_encode :
    encode (.vcmpequw128Rc 100 77 45) = 0x188D6E1D#32 ∧ encode (.vcmpequw128 100 5 64) = 0x1885020E#32 ∧
      encode (.vcmpequw128Rc 127 100 7) = 0x1BE43E3C#32 := by decide

/-- The bytes of P1's first word in address order, with what follows them. -/
theorem test_decode_bytes :
    decodeBytes [0x10#8, 0x40#8, 0x08#8, 0x86#8, 0x10#8] = .ok (.vcmpequw 2 0 1, [0x10#8]) ∧
      decodeBytes [0x10#8, 0x40#8, 0x08#8] = .error .truncated := by decide

/-- R52, R53: `vcmpequw v2, v0, 1` assembles; `vcmpequw v32, v0, v0` and `vcmpequw128 v128, v0, v0` are errors. -/
theorem test_assemble :
    assemble .vc false (.v 2) (.v 0) (.bare 1) = some 0x10400886#32 ∧
      assemble .vc false (.v 32) (.v 0) (.v 0) = none ∧ assemble .vx128r false (.v 128) (.v 0) (.v 0) = none := by decide

/-- R52, R54: the mnemonic fixes the format, its dot is `Rc`, and nothing else is a mnemonic. -/
theorem test_assembleLine :
    assembleLine "vcmpequw." (.v 3) (.v 2) (.v 2) = some 0x10621486#32 ∧
      assembleLine "vcmpequw128." (.v 100) (.v 77) (.v 45) = some 0x188D6E1D#32 ∧
      assembleLine "vcmpequw" (.v 64) (.v 0) (.v 0) = none ∧ assembleLine "vcmpequd" (.v 1) (.v 0) (.v 0) = none := by decide

/-- The four rows of the opcode table, each with every operand bit zero. -/
theorem test_table_words :
    decodeTableWord 32 0x10000086 = some (.vcmpequw 0 0 0) ∧ decodeTableWord 32 0x10000486 = some (.vcmpequwRc 0 0 0) ∧
      decodeTableWord 32 0x18000200 = some (.vcmpequw128 0 0 0) ∧
      decodeTableWord 32 0x18000210 = some (.vcmpequw128Rc 0 0 0) := by decide

/-! ### The lane and condition-field functions -/

/-- S7, S11, S13: signs, single bits, and equal values in different lanes. -/
theorem test_cmpEqW :
    cmpEqW 0x00000001FFFFFFFF800000007FFFFFFF#128 0xFFFFFFFF000000017FFFFFFF80000000#128 = 0#128 ∧
    cmpEqW 0x12345678123456781234567812345678#128 0x12345679123556789234567812345678#128 = 0xFFFFFFFF#128 ∧
    cmpEqW 0xAAAAAAAABBBBBBBBCCCCCCCCDDDDDDDD#128 0xBBBBBBBBAAAAAAAADDDDDDDDCCCCCCCC#128 = 0#128 := by decide

/-- X9, S20: all lanes, no lane, three of four lanes. -/
theorem test_cr6FromMask :
    (cr6FromMask 0xFFFFFFFFFFFFFFFFFFFFFFFFFFFFFFFF#128).toBits = 0b1000#4 ∧ (cr6FromMask 0#128).toBits = 0b0010#4 ∧
      (cr6FromMask 0xFFFFFFFFFFFFFFFFFFFFFFFF00000000#128).toBits = 0b0000#4 := by decide

/-- R3, R31: lane 0 is the most significant word, and byte 0 of the image its most significant byte. -/
theorem test_lane_order :
    lane 0xAABBCCDD000000000000000000000011#128 0 = 0xAABBCCDD#32 ∧ lane 0xAABBCCDD000000000000000000000011#128 3 = 0x11#32 ∧
      imageByte 0xAABBCCDD000000000000000000000011#128 0 = 0xAA#8 ∧
      imageByte 0xAABBCCDD000000000000000000000011#128 15 = 0x11#8 := by decide

/-! ### The instructions: two tests each -/

/-- K3: `VD = VA`; CR6 is kept. -/
theorem test_vcmpequw_vd_is_va :
    view 0 (exec (.vcmpequw 0 0 1) demo) = some (0xFFFFFFFF00000000FFFFFFFF00000000#128, 0b0101#4, 0x104) := by decide

/-- K7: no lane equal; CR6 is kept. -/
theorem test_vcmpequw_none_equal : view 12 (exec (.vcmpequw 12 10 11) demo) = some (0#128, 0b0101#4, 0x104) := by decide

/-- K6: `gt` and `so` are cleared, not kept. -/
theorem test_vcmpequwRc_none_equal : view 12 (exec (.vcmpequwRc 12 10 11) demo) = some (0#128, 0b0010#4, 0x104) := by decide

/-- K10: `VD = VA`, and the mask inverted by a compare with zero. -/
theorem test_vcmpequwRc_inverts : view 4 (exec (.vcmpequwRc 4 4 9) demo) = some (0xFFFFFFFF#128, 0b0000#4, 0x104) := by decide

/-- K9: the high pieces select registers 64, 32, 96. -/
theorem test_vcmpequw128_high_registers :
    view 64 (exec (.vcmpequw128 64 32 96) demo) = some (0xFFFFFFFF0000000000000000FFFFFFFF#128, 0b0101#4, 0x104) := by decide

/-- K4 through the other format: `VD = VB`. -/
theorem test_vcmpequw128_vd_is_vb :
    view 1 (exec (.vcmpequw128 1 0 1) demo) = some (0xFFFFFFFF00000000FFFFFFFF00000000#128, 0b0101#4, 0x104) := by decide

/-- K5: one register in all three places. -/
theorem test_vcmpequw128Rc_all_same :
    view 127 (exec (.vcmpequw128Rc 127 127 127) demo) = some (BitVec.allOnes 128, 0b1000#4, 0x104) := by decide

/-- S1 in the record form of the other format: some lanes equal and some not. -/
theorem test_vcmpequw128Rc_some_equal :
    view 2 (exec (.vcmpequw128Rc 2 0 1) demo) = some (0xFFFFFFFF00000000FFFFFFFF00000000#128, 0b0000#4, 0x104) := by decide

/-! ### A step -/

/-- P1, step 1. -/
theorem test_step_p1 :
    view 2 (step demo) = some (0xFFFFFFFF00000000FFFFFFFF00000000#128, 0b0101#4, 0x104) := by decide

/-- R95: at `end_pc` no step is taken. -/
theorem test_step_end : fault (step { demo with pc := .w32 0x108#32 }) = some .runEnded := by decide

/-- R33: misaligned, and outside CodeRegion. -/
theorem test_step_not_admitted :
    refusal (step { demo with pc := .w32 0x102#32 }) = some .fetchNotAdmitted ∧
      refusal (step { demo with pc := .w32 0x10C#32 }) = some .fetchNotAdmitted := by decide

/-- M20: a foreign word. -/
theorem test_step_foreign : refusal (step (demo.withFetchWord 32 0x60000000)) = some .notInScope := by decide

/-- R16: the last word of the space, in either width, and the last word that completes. -/
theorem test_step_top_of_space :
    refusal (step ({ demo with pc := .w32 0xFFFFFFFC#32 }.withFetchWord 32 0x10000086)) = some .pcOverflow ∧
      refusal (step ({ demo with pc := .w64 0xFFFFFFFFFFFFFFFC#64 }.withFetchWord 32 0x10000086)) = some .pcOverflow ∧
      view 0 (step ({ demo with pc := .w32 0xFFFFFFF8#32 }.withFetchWord 32 0x10000086)) =
        some (BitVec.allOnes 128, 0b0101#4, 0xFFFFFFFC) := by decide

/-- A table word placed after reset is the next instruction to run. -/
theorem test_withFetchWord_runs :
    view 0 (step (State.reset.withFetchWord 32 0x18000210)) = some (BitVec.allOnes 128, 0b1000#4, 4) := by decide

/-- R21 in the model's own words (log 9): an unlisted opaque register holds 0. -/
theorem test_unlisted_register_is_zero :
    State.reset.other.gpr.read 31 = 0 ∧ RegFile.read [(3, 7)] 3 = 7 ∧ RegFile.read [(3, 7)] 4 = 0 := by decide

/-! ### Witnesses: states and operands that meet the hypotheses of each statement -/

/-- P1 starts with room for the next address. -/
theorem demo_has_room : demo.pc.addr + 4 < 2 ^ demo.pc.width := by decide

/-- Every instruction completes from the start of P1. -/
theorem demo_completes (i : Instr) : ∃ t, exec i demo = .next t := by
  cases i <;> exact ⟨_, rfl⟩

/-- Two instructions in a row complete. -/
theorem demo_completes_twice (i j : Instr) : ∃ t u, exec i demo = .next t ∧ exec j t = .next u := by
  cases i <;> cases j <;> exact ⟨_, _, rfl, rfl⟩

theorem demo_steps : ∃ t, step demo = .next t := ⟨_, rfl⟩

theorem witness_FieldIsMostSignificantFirst :
    (0 ≤ 0 ∧ 0 ≤ 31 ∧ field 0x80000000#32 0 1 = 1#1) ∧ (0 ≤ 31 ∧ 31 ≤ 31 ∧ field 0x80000001#32 0 32 = 0x80000001#32) ∧
      (31 ≤ 31 ∧ field 0x00000001#32 31 1 = 1#1) := by decide

theorem witness_LaneBitsFromMostSignificant :
    (0 < 32 ∧ (lane 1#128 3).getLsbD 0 = true) ∧ 31 < 32 ∧ (lane (1#128 <<< 127) 0).getLsbD 31 = true := by decide

theorem witness_RegisterImageIsBigEndian :
    (7 < 8 ∧ (imageByte (1#128 <<< 127) 0).getLsbD 7 = true) ∧ 4 * (3 : Fin 4).val + (3 : Fin 4).val < 16 := by decide

theorem witness_OneRegisterFileForBothFormats :
    (127 : VReg) ≠ 0 ∧ (∃ t u, exec (.vcmpequw 5 0 1) demo = .next t ∧ exec (.vcmpequw128 100 5 1) t = .next u) ∧
      (∃ t u, exec (.vcmpequw128 5 0 1) demo = .next t ∧ exec (.vcmpequw 31 1 5) t = .next u) ∧
      decodeWord 0x13FFFC86#32 = .ok (.vcmpequwRc 31 31 31) ∧ (Instr.vcmpequwRc 31 31 31).format = .vc :=
  ⟨by decide, demo_completes_twice _ _, demo_completes_twice _ _, by decide, rfl⟩

theorem witness_Cr6WrittenByRecordFormsReadByNone :
    (∃ t, exec (.vcmpequwRc 3 2 2) demo = .next t ∧ (Instr.vcmpequwRc 3 2 2).rc = true) ∧
      ∃ t, exec (.vcmpequw128 64 32 96) demo = .next t ∧ (Instr.vcmpequw128 64 32 96).rc = false :=
  ⟨⟨_, rfl, rfl⟩, _, rfl, rfl⟩

/-- The last address with room for the next, and the first without, in both widths. -/
theorem witness_PcAdvancesByFourOrOverflowIsRefused :
    (Pc.w32 0xFFFFFFFB#32).addr + 4 < 2 ^ (Pc.w32 0xFFFFFFFB#32).width ∧
      2 ^ (Pc.w32 0xFFFFFFFC#32).width ≤ (Pc.w32 0xFFFFFFFC#32).addr + 4 ∧
      (Pc.w64 0xFFFFFFFFFFFFFFFB#64).addr + 4 < 2 ^ (Pc.w64 0xFFFFFFFFFFFFFFFB#64).width ∧
      2 ^ (Pc.w64 0xFFFFFFFFFFFFFFFC#64).width ≤ (Pc.w64 0xFFFFFFFFFFFFFFFC#64).addr + 4 := by decide

theorem witness_OtherRegistersUnreadAndUnwritten :
    (∃ t, exec (.vcmpequw128Rc 2 0 1) demo = .next t) ∧ (Instr.vcmpequw128Rc 2 0 1).rc = true :=
  ⟨demo_completes _, rfl⟩

theorem witness_InstructionFrame :
    (∃ t, exec (.vcmpequw 2 0 1) demo = .next t) ∧ (Instr.vcmpequw 2 0 1).rc = false ∧ (127 : VReg) ≠ (Instr.vcmpequw 2 0 1).vd :=
  ⟨demo_completes _, rfl, by decide⟩

theorem witness_NoDataMemoryAccess : ∃ t, exec (.vcmpequw128 64 32 96) demo = .next t := demo_completes _

/-- The second word of P1. -/
theorem witness_FetchAssemblesBigEndianWord :
    0x104 % 4 = 0 ∧ (∀ k < 4, demo.inCode (0x104 + k) = true) ∧ demo.mem.read 0x104 = some 0x10#8 ∧
      demo.mem.read (0x104 + 1) = some 0x62#8 ∧ demo.mem.read (0x104 + 2) = some 0x14#8 ∧
      demo.mem.read (0x104 + 3) = some 0x86#8 ∧ demo.fetchAt 0x104 = some 0x10621486#32 := by decide

/-- Misaligned; aligned with only the first bytes outside CodeRegion; and a step that is taken. -/
theorem witness_FetchAdmissionAndAlignment :
    (demo.endPc ≠ some 0x101 ∧ ¬ Admitted { demo with pc := .w32 0x101#32 }) ∧
      (demo.endPc ≠ some 0xFC ∧ ¬ Admitted { demo with pc := .w32 0xFC#32 }) ∧ ∃ t, step demo = .next t := by
  refine ⟨⟨by decide, fun h => absurd h.1 (by decide)⟩, ⟨by decide, fun h => absurd (h.2 0 (by decide)) (by decide)⟩, demo_steps⟩

/-- The first and the last of the four bytes unlisted. -/
theorem witness_UnlistedProgramTextIsNotFetched :
    (demo.endPc ≠ some 0x10C ∧ 0 < 4 ∧ demo.mem.read 0x10C = none) ∧
      demo.endPc ≠ some 0x105 ∧ 3 < 4 ∧ demo.mem.read (0x105 + 3) = none := by decide

theorem witness_PlacedWordIsFetched :
    0x108 % 4 = 0 ∧ (0x107 < 0x108 ∨ 0x108 + 4 ≤ 0x107) ∧ (0x10C < 0x108 ∨ 0x108 + 4 ≤ 0x10C) ∧ demo.inCode 0x107 = true ∧
      demo.mem.wf = true := by decide

/-- A word of each branch. -/
theorem witness_DecodeReadsTheTablesFields :
    (0x13FFFC86#32 &&& 0xFC0003FF#32 = 0x10000086#32) ∧
      (¬ 0x1BFFFE3F#32 &&& 0xFC0003FF#32 = 0x10000086#32 ∧ 0x1BFFFE3F#32 &&& 0xFC0003C0#32 = 0x18000200#32) ∧
      ¬ 0x18000240#32 &&& 0xFC0003FF#32 = 0x10000086#32 ∧ ¬ 0x18000240#32 &&& 0xFC0003C0#32 = 0x18000200#32 := by decide

theorem witness_EveryOperandCombinationIsOneWord :
    (Instr.vcmpequw 31 31 31).wf = true ∧ (Instr.vcmpequw128Rc 127 127 127).wf = true := by decide

theorem witness_EncodeAndDecodeAreInverse :
    ((31 : VReg).val < 32 ∧ (0 : VReg).val < 32) ∧ (Instr.vcmpequwRc 31 31 31).wf = true ∧
      decodeWord 0x1BFFFE3F#32 = .ok (.vcmpequw128Rc 127 127 127) := by decide

theorem witness_NoPseudoInstructionAndTheTwoIdioms :
    assembleLine "vcmpequw" (.v 1) (.v 0) (.v 0) = some 0x10200086#32 ∧
      decodeWord 0x10200086#32 = .ok (Instr.allOnesIdiom 1 0) ∧ (Instr.allOnesIdiom 1 0).mnemonic = "vcmpequw" ∧
      demo.pc.addr + 4 < 2 ^ demo.pc.width := by decide

theorem witness_effects : ((0 : VReg).val < 32 ∧ (31 : VReg).val < 32) ∧ demo.pc.addr + 4 < 2 ^ demo.pc.width := by decide

theorem witness_VcmpequwRecordEffect : ∃ t, exec (.vcmpequwRc 3 2 2) demo = .next t := demo_completes _

/-- The worked example of R65: the values of `vr[77]` and `vr[45]`. -/
def demo65 : State :=
  (demo.writeVr 77 0x00000000000000010000000200000003#128).writeVr 45 0x00000004000000050000000600000007#128

theorem witness_Vcmpequw128RecordEffect :
    demo65.readVr 77 = 0x00000000000000010000000200000003#128 ∧ demo65.readVr 45 = 0x00000004000000050000000600000007#128 ∧
      ∃ t, exec (.vcmpequw128Rc 100 77 45) demo65 = .next t :=
  ⟨by decide, by decide, _, rfl⟩

/-- One instruction for each of the cases: `VA = VB`, `VD = VA`, `VD = VB`, all three, with the record bit. -/
theorem witness_AliasingUsesTheOldValues :
    (∃ t, exec (.vcmpequwRc 3 2 2) demo = .next t) ∧ (∃ t, exec (.vcmpequw 0 0 1) demo = .next t ∧ (0 : VReg) ≠ 1) ∧
      (∃ t, exec (.vcmpequw 1 0 1) demo = .next t ∧ (1 : VReg) ≠ 0) ∧ ∃ t, exec (.vcmpequw128Rc 127 127 127) demo = .next t :=
  ⟨demo_completes _, ⟨_, rfl, by decide⟩, ⟨_, rfl, by decide⟩, demo_completes _⟩

theorem witness_ComparisonIsPatternEquality :
    (lane (0#128) 0 = 0x00000000#32 ∧ lane (0x80000000#128 <<< 96) 0 = 0x80000000#32) ∧ 31 < 32 ∧
      lane 0x7FC00000#128 3 = 0x7FC00000#32 := by decide

theorem witness_MaskLaws : IsMask 0xFFFFFFFF00000000FFFFFFFF00000000#128 := by unfold IsMask; decide

theorem witness_RecordFormComparesRegisters :
    (Instr.vcmpequwRc 12 10 11).rc = true ∧ ∃ t, exec (.vcmpequwRc 12 10 11) demo = .next t := ⟨rfl, demo_completes _⟩

theorem witness_FormsAgreeOnTheSameOperands : ∃ t, exec (Instr.ofParts .vx128r false 2 0 1) demo = .next t := demo_completes _

/-- An instruction that is refused, for the middle clause. -/
theorem witness_NoInstructionFaults :
    exec (.vcmpequw 0 0 0) { demo with pc := .w64 0xFFFFFFFFFFFFFFFC#64 } = .refused .pcOverflow := rfl

/-- P6: its second word is foreign, and a third stands after it. -/
def demoP6 : State :=
  { ((demo.placeWord 0x100 0x10200086#32).placeWord 0x104 0x60000000#32).placeWord 0x108 0x10410C86#32 with
    endPc := some 0x10C }

/-- P6 is refused at its second step, as the later clauses of ForeignWordsAreRefused assume. -/
theorem witness_refused_at_the_second_step :
    (∃ t, run 1 demoP6 = .next t ∧ refusal (step t) = some .notInScope) ∧ refusal (run 2 demoP6) = some .notInScope :=
  ⟨⟨_, rfl, by decide⟩, by decide⟩

theorem witness_ForeignWordsAreRefused :
    (demo.withFetchWord 32 0x60000000).endPc ≠ some 0x100 ∧ (demo.withFetchWord 32 0x60000000).fetch = some 0x60000000#32 ∧
      0x60000000#32 &&& 0xFC0003FF#32 ≠ 0x10000086#32 ∧ 0x60000000#32 &&& 0xFC0003C0#32 ≠ 0x18000200#32 ∧
      refusal (step State.reset) = some .fetchNotAdmitted := by decide

/-- A state for each of the five checks. -/
theorem witness_OrderOfChecksInAStep :
    demo.endPc = some ({ demo with pc := .w32 0x108#32 } : State).pc.addr ∧ demo.endPc ≠ some demo.pc.addr ∧
      demo.fetch = some 0x10400886#32 ∧ decodeWord 0x10400886#32 = .ok (.vcmpequw 2 0 1) ∧
      decodeWord 0x60000000#32 = .error .notInScope ∧ demo.pc.addr + 4 < 2 ^ demo.pc.width ∧
      2 ^ (Pc.w32 0xFFFFFFFC#32).width ≤ (Pc.w32 0xFFFFFFFC#32).addr + 4 := by decide

theorem witness_StepRunsTheDecodedInstruction :
    demo.endPc ≠ some demo.pc.addr ∧ demo.pc.addr % 4 = 0 ∧ (∀ k < 4, demo.inCode (demo.pc.addr + k) = true) ∧
      demo.mem.read demo.pc.addr = some 0x10#8 ∧ demo.mem.read (demo.pc.addr + 1) = some 0x40#8 ∧
      demo.mem.read (demo.pc.addr + 2) = some 0x08#8 ∧ demo.mem.read (demo.pc.addr + 3) = some 0x86#8 ∧
      decodeBytes [0x10#8, 0x40#8, 0x08#8, 0x86#8] = .ok (.vcmpequw 2 0 1, []) := by decide

theorem witness_StepChangesOneRegisterPcAndCr6 : ∃ t, step demo = .next t := demo_steps

/-- The invariant at a state that a step leaves: P1 with a legal CR6. -/
theorem witness_StepKeepsTheInvariant :
    Inv { demo with cr6 := ⟨true, false, false, false⟩ } ∧ ∃ t, step { demo with cr6 := ⟨true, false, false, false⟩ } = .next t :=
  ⟨⟨by decide, by decide, by unfold CrField.Legal; decide⟩, _, rfl⟩

/-- P1's text over a file of zeros, which are masks. -/
theorem witness_StepKeepsAFileOfMasks :
    (∀ n, IsMask (({ demo with vr := State.reset.vr } : State).readVr n)) ∧
      ∃ t, step { demo with vr := State.reset.vr } = .next t := by
  refine ⟨fun n => ?_, _, rfl⟩
  have h : ({ demo with vr := State.reset.vr } : State).readVr n = 0#128 := by simp [State.readVr, State.reset]
  rw [h]
  unfold IsMask
  decide

theorem witness_ResultIsVisibleToTheNextInstruction :
    (∃ t u, exec (.vcmpequw 2 0 1) demo = .next t ∧ exec (.vcmpequwRc 3 2 2) t = .next u) ∧
      ∃ t u, exec (.vcmpequwRc 2 0 1) demo = .next t ∧ exec (.vcmpequw128 3 1 2) t = .next u :=
  ⟨demo_completes_twice _ _, demo_completes_twice _ _⟩

/-- P1 is launched and in scope. -/
theorem demo_launched : Launched demo prog ∧ AllInScope prog := by
  refine ⟨⟨fun k w h => ?_, by decide, by decide⟩, fun w h => ?_⟩
  · match k, h with
    | 0, h =>
      obtain rfl : 0x10400886#32 = w := by simpa [prog] using h
      decide
    | 1, h =>
      obtain rfl : 0x10621486#32 = w := by simpa [prog] using h
      decide
    | k + 2, h => simp [prog] at h
  · simp only [prog, List.mem_cons, List.not_mem_nil, or_false] at h
    rcases h with rfl | rfl
    · exact ⟨.vcmpequw 2 0 1, by decide⟩
    · exact ⟨.vcmpequwRc 3 2 2, by decide⟩

theorem witness_InScopeWordsTakeOneStepEach :
    Launched demo prog ∧ AllInScope prog ∧ ∀ k < prog.length, demo.endPc ≠ some (demo.pc.addr + 4 * k) :=
  ⟨demo_launched.1, demo_launched.2, by decide⟩

theorem witness_RunEndsAtEndPc :
    ({ demo with pc := .w32 0x108#32 } : State).endPc = some ({ demo with pc := .w32 0x108#32 } : State).pc.addr ∧
      Launched demo prog ∧ AllInScope prog ∧ demo.endPc = some (demo.pc.addr + 4 * prog.length) :=
  ⟨by decide, demo_launched.1, demo_launched.2, by decide⟩

/-- Two states that differ in CR6 and in the registers the spec only names; P1 goes on, ends and is refused. -/
theorem witness_RunsDoNotDependOnUnreadState :
    AgreeOnRead demo { demo with cr6 := ⟨true, true, true, true⟩, other := { demo.other with vscr := 1 } } ∧
      (∃ t, run 1 demo = .next t) ∧ fault (run 1 { demo with pc := .w32 0x108#32 }) = some .runEnded ∧
      refusal (run 1 State.reset) = some .fetchNotAdmitted :=
  ⟨⟨rfl, rfl, rfl, rfl, rfl⟩, ⟨_, rfl⟩, by decide, by decide⟩

end Sys2Proof.Tests
end

section
/-! PROOFS. The bit numbering of fields and lanes (00_scope.md R1 to R3): both are cuts of contiguous bits, so the bits
counted from the most significant end are read off the ones counted from the least significant end. -/

namespace Sys2Proof

/-- The one fact about numbering: a cut with `a` bits to its left and `lo` to its right keeps the order of the bits from the
most significant end, shifted by `a` (R1). -/
theorem getMsbD_extractLsb'_of_add_eq {w n lo a k : Nat} (v : BitVec w) (hw : a + n + lo = w) (hk : k < n) :
    (v.extractLsb' lo n).getMsbD k = v.getMsbD (a + k) := by
  have hbit : lo + (n - 1 - k) = w - 1 - (a + k) := by omega
  have hin : a + k < w := by omega
  have hin' : n - 1 - k < n := by omega
  simp only [BitVec.getMsbD_eq_getLsbD, BitVec.getLsbD_extractLsb', hbit, hk, hin, hin', decide_true, Bool.true_and]

/-- The number in a field is a shift and a mask of the word's number (R1). -/
theorem toNat_field (w : Word) (a n : Nat) :
    (field w a n).toNat = (w.toNat >>> (32 - a - n)) &&& (2 ^ n - 1) := by
  rw [field, BitVec.extractLsb'_toNat, Nat.and_two_pow_sub_one_eq_mod]

/-- The bits of a field, counted from the left in the field and in the word (R1). -/
theorem getMsbD_field (w : Word) {a n k : Nat} (hfit : a + n ≤ 32) (hk : k < n) :
    (field w a n).getMsbD k = w.getMsbD (a + k) :=
  getMsbD_extractLsb'_of_add_eq w (by omega) hk

/-- Settles O1: the field of the bits `a` to `b` has width `b - a + 1` and `31 - b` bits to its right. -/
theorem fieldIsMostSignificantFirst : Obligations.FieldIsMostSignificantFirst := by
  unfold Obligations.FieldIsMostSignificantFirst
  refine ⟨fun w a b hab hb => ⟨?_, fun k hk => ?_⟩, by decide, by decide, by decide⟩
  · have hright : 32 - a - (b - a + 1) = 31 - b := by omega
    rw [toNat_field, hright]
  · exact getMsbD_field w (by omega) (by omega)

namespace Machine

/-- The bits of a lane, counted from the left in the lane and in the vector (R3). -/
theorem getMsbD_lane (v : Vec128) (i : Fin 4) {k : Nat} (hk : k < 32) :
    (lane v i).getMsbD k = v.getMsbD (32 * i.val + k) :=
  getMsbD_extractLsb'_of_add_eq v (by omega) hk

/-- Settles O2: lane `i` has `32i` bits to its left and `96 - 32i` to its right. -/
theorem laneBitsFromMostSignificant : Obligations.LaneBitsFromMostSignificant := by
  unfold Obligations.LaneBitsFromMostSignificant
  intro v i k hk
  exact ⟨getLsbD_lane v i hk, getMsbD_lane v i hk⟩

end Machine

end Sys2Proof
end

section
/-! PROOFS. The state and the frame of an instruction (10_state.md R12 to R19): an instruction is `result`, under the one
condition that `pc` can advance, so each statement is read off `result` at the changed and the unchanged start state. -/

namespace Sys2Proof

/-- A 5-bit field reaches the registers 0 to 31 alone (30_encoding.md R43). -/
theorem vregOfVc_lt (f : BitVec 5) : (vregOfVc f).val < 32 := by
  have hval : (vregOfVc f).val = f.toNat := BitVec.toNat_setWidth_of_le (by decide)
  exact hval ▸ f.isLt

@[simp] theorem format_decodeVc (w : Word) : (decodeVc w).format = .vc := by
  unfold decodeVc
  split <;> rfl

@[simp] theorem format_decodeVx128 (w : Word) : (decodeVx128 w).format = .vx128r := by
  unfold decodeVx128
  split <;> rfl

/-- The registers of a word read as format `VC`, the same for both values of `Rc` (R43). -/
theorem decodeVc_operands (w : Word) :
    (decodeVc w).vd = vregOfVc (field w 6 5) ∧ (decodeVc w).va = vregOfVc (field w 11 5) ∧
      (decodeVc w).vb = vregOfVc (field w 16 5) := by
  unfold decodeVc
  split <;> exact ⟨rfl, rfl, rfl⟩

/-- A decoded instruction is read by its format's table (R41, R42, R48). -/
theorem decodeWord_ok {w : Word} {i : Instr} (h : decodeWord w = .ok i) : i = decodeVc w ∨ i = decodeVx128 w := by
  unfold decodeWord at h
  split_ifs at h <;> cases h
  · exact .inl rfl
  · exact .inr rfl

/-- A decoded instruction of format `VC` is read by that format's table. -/
theorem eq_decodeVc_of_format {w : Word} {i : Instr} (h : decodeWord w = .ok i) (hf : i.format = .vc) :
    i = decodeVc w := by
  rcases decodeWord_ok h with rfl | rfl
  · rfl
  · simp at hf

namespace Machine

/-- `pc` advances by 4 in its own width wherever that fits (R16). -/
theorem Pc.next_of_fits {p : Pc} (h : p.addr + 4 < 2 ^ p.width) :
    ∃ q, p.next = some q ∧ q.addr = p.addr + 4 ∧ q.width = p.width := by
  rcases p.next_cases with ⟨q, hq, ha, hw, -⟩ | ⟨-, hover⟩
  · exact ⟨q, hq, ha, hw⟩
  · exact absurd h hover.not_gt

/-- `pc` does not advance where `pc + 4` does not fit (R16). -/
theorem Pc.next_of_overflow {p : Pc} (h : 2 ^ p.width ≤ p.addr + 4) : p.next = none := by
  rcases p.next_cases with ⟨q, -, -, -, hfits⟩ | ⟨hn, -⟩
  · exact absurd hfits h.not_gt
  · exact hn

/-- An advance of `pc` keeps its width. -/
theorem Pc.next_width {p q : Pc} (h : p.next = some q) : q.width = p.width := by
  rcases p.next_cases with ⟨r, hr, -, hw, -⟩ | ⟨hn, -⟩
  · rw [hr] at h
    cases h
    exact hw
  · rw [hn] at h
    cases h

/-- An instruction completes with its result wherever `pc` advances. -/
theorem exec_of_next {i : Instr} {s : State} {p : Pc} (h : s.pc.next = some p) : exec i s = .next (result i s p) := by
  rw [exec_eq, h]

/-- An instruction is refused where `pc` does not advance. -/
theorem exec_of_next_none {i : Instr} {s : State} (h : s.pc.next = none) : exec i s = .refused .pcOverflow := by
  rw [exec_eq, h]

/-! ### What the result takes from each part of the start state -/

/-- CR6 before an instruction reaches no part of its result but CR6 itself, and that in a plain form alone (R14). -/
theorem result_with_cr6 (i : Instr) (s : State) (c : CrField) (p : Pc) :
    result i { s with cr6 := c } p = { result i s p with cr6 := if i.rc then (result i s p).cr6 else c } := by
  cases h : i.rc <;> simp only [result, h] <;> rfl

/-- `pc` before an instruction reaches no part of its result (R16). -/
theorem result_with_pc (i : Instr) (s : State) (q p : Pc) : result i { s with pc := q } p = result i s p := rfl

/-- The registers the spec only names reach no other part of the result (R15, R17, R18). -/
theorem result_with_other (i : Instr) (s : State) (o : OtherState) (p : Pc) :
    result i { s with other := o } p = { result i s p with other := o } := rfl

/-- Two results of one instruction and state differ in `pc` alone. -/
theorem result_eq_with_pc (i : Instr) (s : State) (p q : Pc) : result i s q = { result i s p with pc := q } := rfl

theorem result_cr6_record {i : Instr} (s : State) (p : Pc) (h : i.rc = true) :
    (result i s p).cr6 = cr6FromMask (compareMask i.va i.vb s) := by
  rw [result_cr6, h, if_pos rfl]

theorem result_cr6_plain {i : Instr} (s : State) (p : Pc) (h : i.rc = false) : (result i s p).cr6 = s.cr6 := by
  simp [h]

/-- The frame of a result, when its `pc` has the width of the old one (R19). -/
theorem result_unchangedBut (i : Instr) (s : State) {p : Pc} (h : p.width = s.pc.width) :
    UnchangedBut i.vd s (result i s p) :=
  ⟨fun _ hn => result_readVr_other i s p hn, fun _ => rfl, rfl, rfl, rfl, h, rfl⟩

/-- The destination holds the mask of the two sources as they were before the instruction (R60). -/
theorem exec_readVr_vd {i : Instr} {s t : State} (h : exec i s = .next t) :
    t.readVr i.vd = cmpEqW (s.readVr i.va) (s.readVr i.vb) := by
  obtain ⟨p, -, rfl⟩ := exec_next h
  exact result_readVr_vd i s p

/-! ### The statements -/

/-- Settles O4: the second instruction reads the register that the first one wrote, whatever the two formats are. -/
theorem oneRegisterFileForBothFormats : Obligations.OneRegisterFileForBothFormats := by
  unfold Obligations.OneRegisterFileForBothFormats
  refine ⟨fun s m n v => ⟨State.readVr_writeVr_same s m v, State.readVr_writeVr_other s v⟩, ?_, ?_, ?_⟩
  · intro s t u d a b e c hfirst hsecond
    have hmask : t.readVr d = cmpEqW (s.readVr a) (s.readVr b) := exec_readVr_vd hfirst
    rw [← hmask]
    exact exec_readVr_vd hsecond
  · intro s t u d a b e c hfirst hsecond
    have hmask : t.readVr d = cmpEqW (s.readVr a) (s.readVr b) := exec_readVr_vd hfirst
    rw [← hmask]
    exact exec_readVr_vd hsecond
  · intro w i hdec hformat
    obtain rfl := eq_decodeVc_of_format hdec hformat
    obtain ⟨hvd, hva, hvb⟩ := decodeVc_operands w
    rw [hvd, hva, hvb]
    exact ⟨vregOfVc_lt _, vregOfVc_lt _, vregOfVc_lt _⟩

/-- Settles O5: the CR6 of a record form comes from the mask, which is read back from `VD`. -/
theorem cr6WrittenByRecordFormsReadByNone : Obligations.Cr6WrittenByRecordFormsReadByNone := by
  unfold Obligations.Cr6WrittenByRecordFormsReadByNone
  intro i s t c h
  obtain ⟨p, hp, rfl⟩ := exec_next h
  refine ⟨?_, fun hrc => ?_, result_cr6_plain s p⟩
  · rw [exec_of_next (s := { s with cr6 := c }) hp, result_with_cr6]
  · rw [result_readVr_vd, result_cr6_record s p hrc]

/-- Settles O6, by the two cases of the advance of `pc`. -/
theorem pcAdvancesByFourOrOverflowIsRefused : Obligations.PcAdvancesByFourOrOverflowIsRefused := by
  unfold Obligations.PcAdvancesByFourOrOverflowIsRefused
  refine fun i s => ⟨fun hfits => ?_, fun hover => exec_of_next_none (Pc.next_of_overflow hover)⟩
  obtain ⟨p, hp, haddr, hwidth⟩ := Pc.next_of_fits hfits
  refine ⟨result i s p, exec_of_next hp, haddr, hwidth, fun q hq => ?_⟩
  obtain ⟨r, hr, -, -⟩ := Pc.next_of_fits hq
  refine ⟨result i s r, ?_, result_eq_with_pc i s p r⟩
  rw [exec_of_next (s := { s with pc := q }) hr, result_with_pc]

/-- Settles O7: `so` is the constant 0 of the mask's condition field, whatever XER.SO holds. -/
theorem otherRegistersUnreadAndUnwritten : Obligations.OtherRegistersUnreadAndUnwritten := by
  unfold Obligations.OtherRegistersUnreadAndUnwritten
  intro i s t o h
  obtain ⟨p, hp, rfl⟩ := exec_next h
  refine ⟨result_other i s p, ?_, fun hrc => ?_⟩
  · rw [exec_of_next (s := { s with other := o }) hp, result_with_other]
  · rw [result_cr6_record s p hrc, cr6FromMask]

/-- Settles O8: the frame is that of `result`. -/
theorem instructionFrame : Obligations.InstructionFrame := by
  unfold Obligations.InstructionFrame
  intro i s t h
  obtain ⟨p, hp, rfl⟩ := exec_next h
  exact ⟨result_unchangedBut i s (Pc.next_width hp), result_cr6_plain s p⟩

end Machine

end Sys2Proof
end

section
/-! PROOFS. Memory and fetch (20_memory.md R30 to R33): the result of an instruction carries memory through, a word's number
is that of its bytes in base 256, and a fetch that answers was admitted. -/

namespace Sys2Proof

/-- The left vector counts in units of the right one's range. -/
theorem toNat_append_eq_mul_add {m n : Nat} (x : BitVec m) (y : BitVec n) :
    (x ++ y).toNat = x.toNat * 2 ^ n + y.toNat := by
  rw [BitVec.toNat_append, ← Nat.shiftLeft_add_eq_or_of_lt y.isLt, Nat.shiftLeft_eq]

/-- The number of a word read big-endian, the byte at the lowest address most significant (R32). -/
theorem toNat_wordOfBytes (b0 b1 b2 b3 : Byte) :
    (wordOfBytes b0 b1 b2 b3).toNat = b0.toNat * 2 ^ 24 + b1.toNat * 2 ^ 16 + b2.toNat * 2 ^ 8 + b3.toNat := by
  rw [wordOfBytes, toNat_append_eq_mul_add, toNat_append_eq_mul_add, toNat_append_eq_mul_add]
  ring

/-- Bits 0 to 7 of a word are its first byte (R32). -/
theorem field_wordOfBytes_first (b0 b1 b2 b3 : Byte) : field (wordOfBytes b0 b1 b2 b3) 0 8 = b0 := by
  rw [field, wordOfBytes, BitVec.extractLsb'_append_eq_of_le (by decide), BitVec.extractLsb'_append_eq_of_le (by decide)]
  exact BitVec.extractLsb'_append_eq_left

namespace Machine

/-- Memory before an instruction reaches no other part of its result (R30). -/
theorem result_with_mem (i : Instr) (s : State) (m : Memory) (p : Pc) :
    result i { s with mem := m } p = { result i s p with mem := m } := rfl

/-- A byte of program text lies inside CodeRegion and is listed (R33, R34). -/
theorem codeByte_eq_some {s : State} {a : Nat} {b : Byte} :
    s.codeByte a = some b ↔ s.inCode a = true ∧ s.mem.read a = some b := by
  simp [State.codeByte]

/-- A fetch that answers was admitted (R33). -/
theorem admitted_of_fetch {s : State} {w : Word} (h : s.fetch = some w) : Admitted s := by
  obtain ⟨halign, b0, b1, b2, b3, h0, h1, h2, h3, -⟩ := fetchAt_eq_some.mp h
  refine ⟨halign, fun k hk => ?_⟩
  interval_cases k
  · exact (codeByte_eq_some.mp h0).1
  · exact (codeByte_eq_some.mp h1).1
  · exact (codeByte_eq_some.mp h2).1
  · exact (codeByte_eq_some.mp h3).1

/-- Without a word at `pc` a step of a run that goes on is refused (R33; 60_exceptions.md R88 check 1). -/
theorem step_of_fetch_none {s : State} (hgo : s.endPc ≠ some s.pc.addr) (h : s.fetch = none) :
    step s = .refused .fetchNotAdmitted := by
  simp [step, State.ended, hgo, h]

/-- `pc` advances by 4 (R16). -/
theorem Pc.next_addr {p q : Pc} (h : p.next = some q) : q.addr = p.addr + 4 := by
  rcases p.next_cases with ⟨r, hr, ha, -, -⟩ | ⟨hn, -⟩
  · exact Option.some.inj (hr.symm.trans h) ▸ ha
  · exact absurd (h.symm.trans hn) (Option.some_ne_none q)

/-- A step that is taken was admitted and leaves `pc` at the next word (R16, R33). -/
theorem step_next_admitted_and_addr {s t : State} (h : step s = .next t) : Admitted s ∧ t.pc.addr = s.pc.addr + 4 := by
  obtain ⟨-, w, i, hfetch, -, hexec⟩ := step_next h
  obtain ⟨p, hp, rfl⟩ := exec_next hexec
  exact ⟨admitted_of_fetch hfetch, Pc.next_addr hp⟩

/-! ### The statements -/

/-- Settles O9: an instruction's result has the memory it started with, whatever that is. -/
theorem noDataMemoryAccess : Obligations.NoDataMemoryAccess := by
  unfold Obligations.NoDataMemoryAccess
  intro i s t m h
  obtain ⟨p, hp, rfl⟩ := exec_next h
  refine ⟨result_mem i s p, ?_⟩
  rw [exec_of_next (s := { s with mem := m }) hp, result_with_mem]

/-- Settles O10: at an aligned address with four bytes of program text the fetch answers `wordOfBytes` of them. -/
theorem fetchAssemblesBigEndianWord : Obligations.FetchAssemblesBigEndianWord := by
  unfold Obligations.FetchAssemblesBigEndianWord
  refine ⟨fun s => rfl, fun s a b0 b1 b2 b3 halign hcode h0 h1 h2 h3 => ?_⟩
  have hfetch : s.fetchAt a = some (wordOfBytes b0 b1 b2 b3) :=
    fetchAt_eq_some.mpr ⟨halign, b0, b1, b2, b3, codeByte_eq_some.mpr ⟨hcode 0 (by decide), h0⟩,
      codeByte_eq_some.mpr ⟨hcode 1 (by decide), h1⟩, codeByte_eq_some.mpr ⟨hcode 2 (by decide), h2⟩,
      codeByte_eq_some.mpr ⟨hcode 3 (by decide), h3⟩, rfl⟩
  exact ⟨_, hfetch, toNat_wordOfBytes b0 b1 b2 b3, field_wordOfBytes_first b0 b1 b2 b3⟩

/-- Settles O11: no word is fetched where the fetch is not admitted, and a taken step moves an aligned `pc` by 4. -/
theorem fetchAdmissionAndAlignment : Obligations.FetchAdmissionAndAlignment := by
  unfold Obligations.FetchAdmissionAndAlignment
  refine ⟨fun s hgo hadm => step_of_fetch_none hgo ?_, fun s t h => ?_⟩
  · exact Option.eq_none_iff_forall_ne_some.mpr fun w hw => hadm (admitted_of_fetch hw)
  · obtain ⟨⟨halign, -⟩, haddr⟩ := step_next_admitted_and_addr h
    exact ⟨halign, by omega⟩

end Machine

end Sys2Proof
end

section
/-! PROOFS. Encoding, the layer below its statements (30_encoding.md R41 to R53): a word is the concatenation of its fields
in either format's table, so a mask, the encoder and the decoder are all read field by field; and an instruction is its
format, its `Rc` and its three register numbers, so each fact is said once for both values of `Rc`. -/

namespace Sys2Proof

/-! ### The layout of the two formats -/

/-- A word laid out by the table of format `VC` (R41). -/
def layoutVc (op : BitVec 6) (d a b : BitVec 5) (rc : BitVec 1) (xo : BitVec 10) : Word :=
  op ++ d ++ a ++ b ++ rc ++ xo

/-- A word laid out by the table of format `VX128_R` (R42): `aH` and `ah` are the two high bits of `VA`, `dh` and `bh`
the two high bits of `VD` and of `VB`. -/
def layoutVx128 (op : BitVec 6) (d a b : BitVec 5) (aH : BitVec 1) (xo : BitVec 4) (ah rc : BitVec 1) (dh bh : BitVec 2) :
    Word :=
  op ++ d ++ a ++ b ++ aH ++ xo ++ ah ++ rc ++ dh ++ bh

/-- Two concatenations of the same shape are equal exactly when their parts are. -/
theorem append_eq_append_iff {m n : Nat} {x x' : BitVec m} {y y' : BitVec n} :
    x ++ y = x' ++ y' ↔ x = x' ∧ y = y' := by
  refine ⟨fun h => ⟨?_, ?_⟩, fun ⟨hx, hy⟩ => hx ▸ hy ▸ rfl⟩
  · rw [← BitVec.extractLsb'_append_eq_left (a := x) (b := y), h, BitVec.extractLsb'_append_eq_left]
  · rw [← BitVec.extractLsb'_append_eq_right (a := x) (b := y), h, BitVec.extractLsb'_append_eq_right]

/-- Two fields that stand side by side are one field. -/
theorem field_append_field (w : Word) {a m c n : Nat} (hc : c = a + m) (hfit : c + n ≤ 32) :
    field w a m ++ field w c n = field w a (m + n) := by
  subst hc
  have hstart : 32 - a - (m + n) = 32 - (a + m) - n := by omega
  rw [field, field, field, BitVec.extractLsb'_append_extractLsb'_eq_extractLsb' (by omega), hstart]

/-- A word is its fields in the table of format `VC` (R41). -/
theorem layoutVc_fields (w : Word) :
    layoutVc (field w 0 6) (field w 6 5) (field w 11 5) (field w 16 5) (field w 21 1) (field w 22 10) = w := by
  rw [layoutVc]
  iterate 5 rw [field_append_field w rfl (by decide)]
  exact BitVec.extractLsb'_eq_self

/-- A word is its fields in the table of format `VX128_R` (R42). -/
theorem layoutVx128_fields (w : Word) :
    layoutVx128 (field w 0 6) (field w 6 5) (field w 11 5) (field w 16 5) (field w 21 1) (field w 22 4) (field w 26 1)
      (field w 27 1) (field w 28 2) (field w 30 2) = w := by
  rw [layoutVx128]
  iterate 9 rw [field_append_field w rfl (by decide)]
  exact BitVec.extractLsb'_eq_self

theorem layoutVc_inj {op op' : BitVec 6} {d d' a a' b b' : BitVec 5} {rc rc' : BitVec 1} {xo xo' : BitVec 10} :
    layoutVc op d a b rc xo = layoutVc op' d' a' b' rc' xo' ↔
      op = op' ∧ d = d' ∧ a = a' ∧ b = b' ∧ rc = rc' ∧ xo = xo' := by
  change (_ : BitVec (6 + 5 + 5 + 5 + 1 + 10)) = _ ↔ _
  simp only [layoutVc, append_eq_append_iff, and_assoc]

theorem layoutVx128_inj {op op' : BitVec 6} {d d' a a' b b' : BitVec 5} {aH aH' : BitVec 1} {xo xo' : BitVec 4}
    {ah ah' rc rc' : BitVec 1} {dh dh' bh bh' : BitVec 2} :
    layoutVx128 op d a b aH xo ah rc dh bh = layoutVx128 op' d' a' b' aH' xo' ah' rc' dh' bh' ↔
      op = op' ∧ d = d' ∧ a = a' ∧ b = b' ∧ aH = aH' ∧ xo = xo' ∧ ah = ah' ∧ rc = rc' ∧ dh = dh' ∧ bh = bh' := by
  change (_ : BitVec (6 + 5 + 5 + 5 + 1 + 4 + 1 + 1 + 2 + 2)) = _ ↔ _
  simp only [layoutVx128, append_eq_append_iff, and_assoc]

/-- A mask that is laid out by the table of format `VC` acts field by field. -/
theorem layoutVc_and (op op' : BitVec 6) (d d' a a' b b' : BitVec 5) (rc rc' : BitVec 1) (xo xo' : BitVec 10) :
    layoutVc op d a b rc xo &&& layoutVc op' d' a' b' rc' xo' =
      layoutVc (op &&& op') (d &&& d') (a &&& a') (b &&& b') (rc &&& rc') (xo &&& xo') := by
  change (_ : BitVec (6 + 5 + 5 + 5 + 1 + 10)) &&& _ = _
  simp only [layoutVc, BitVec.and_append]

/-- A mask that is laid out by the table of format `VX128_R` acts field by field. -/
theorem layoutVx128_and (op op' : BitVec 6) (d d' a a' b b' : BitVec 5) (aH aH' : BitVec 1) (xo xo' : BitVec 4)
    (ah ah' rc rc' : BitVec 1) (dh dh' bh bh' : BitVec 2) :
    layoutVx128 op d a b aH xo ah rc dh bh &&& layoutVx128 op' d' a' b' aH' xo' ah' rc' dh' bh' =
      layoutVx128 (op &&& op') (d &&& d') (a &&& a') (b &&& b') (aH &&& aH') (xo &&& xo') (ah &&& ah') (rc &&& rc')
        (dh &&& dh') (bh &&& bh') := by
  change (_ : BitVec (6 + 5 + 5 + 5 + 1 + 4 + 1 + 1 + 2 + 2)) &&& _ = _
  simp only [layoutVx128, BitVec.and_append]

/-! ### Mask and match (R47, R48) -/

/-- A mask of `OPCD`, `XO` and, with `m` = 1, of `Rc` in format `VC`. -/
theorem and_maskVc_eq_iff (w : Word) {mask word : Word} {m r : BitVec 1}
    (hmask : mask = layoutVc (BitVec.allOnes 6) 0#5 0#5 0#5 m (BitVec.allOnes 10))
    (hword : word = layoutVc Config.opcdVc 0#5 0#5 0#5 r Config.xoVc) :
    w &&& mask = word ↔ field w 0 6 = Config.opcdVc ∧ field w 21 1 &&& m = r ∧ field w 22 10 = Config.xoVc := by
  conv_lhs => rw [hmask, hword, ← layoutVc_fields w, layoutVc_and, layoutVc_inj]
  simp only [BitVec.and_allOnes, BitVec.and_zero, true_and]

/-- A mask of `OPCD`, `XO` and, with `m` = 1, of `Rc` in format `VX128_R`. -/
theorem and_maskVx128_eq_iff (w : Word) {mask word : Word} {m r : BitVec 1}
    (hmask : mask = layoutVx128 (BitVec.allOnes 6) 0#5 0#5 0#5 0#1 (BitVec.allOnes 4) 0#1 m 0#2 0#2)
    (hword : word = layoutVx128 Config.opcdVx128 0#5 0#5 0#5 0#1 Config.xoVx128 0#1 r 0#2 0#2) :
    w &&& mask = word ↔
      field w 0 6 = Config.opcdVx128 ∧ field w 22 4 = Config.xoVx128 ∧ field w 27 1 &&& m = r := by
  conv_lhs => rw [hmask, hword, ← layoutVx128_fields w, layoutVx128_and, layoutVx128_inj]
  simp only [BitVec.and_allOnes, BitVec.and_zero, true_and, and_true]

/-- The first test of the decoder is on the fixed fields of format `VC` (R48). -/
theorem and_formatMaskVc_eq_iff (w : Word) :
    w &&& 0xFC0003FF#32 = 0x10000086#32 ↔ field w 0 6 = Config.opcdVc ∧ field w 22 10 = Config.xoVc := by
  exact (and_maskVc_eq_iff w (m := 0#1) (r := 0#1) rfl rfl).trans (by simp)

/-- The second test of the decoder is on the fixed fields of format `VX128_R` (R48). -/
theorem and_formatMaskVx128_eq_iff (w : Word) :
    w &&& 0xFC0003C0#32 = 0x18000200#32 ↔ field w 0 6 = Config.opcdVx128 ∧ field w 22 4 = Config.xoVx128 := by
  exact (and_maskVx128_eq_iff w (m := 0#1) (r := 0#1) rfl rfl).trans (by simp)

/-- The formats differ in the primary opcode (R40). -/
theorem opcdVx128_ne_opcdVc : Config.opcdVx128 ≠ Config.opcdVc := by decide

/-! ### Register numbers and their pieces (R43, R44, R51) -/

theorem vregOfVc_val (f : BitVec 5) : (vregOfVc f).val = f.toNat := BitVec.toNat_setWidth_of_le (by decide)

theorem vregOfVx128_val (hi : BitVec 2) (lo : BitVec 5) : (vregOfVx128 hi lo).val = 32 * hi.toNat + lo.toNat := by
  rw [Nat.mul_comm]
  exact toNat_append_eq_mul_add hi lo

theorem toNat_vregLow (n : VReg) : (vregLow n).toNat = n.val &&& 31 := by
  rw [vregLow, BitVec.extractLsb'_toNat]
  exact (Nat.and_two_pow_sub_one_eq_mod n.val 5).symm

theorem toNat_vregLow_of_lt {n : VReg} (h : n.val < 32) : (vregLow n).toNat = n.val := by
  rw [toNat_vregLow]
  exact Nat.and_two_pow_sub_one_of_lt_two_pow (n := 5) h

theorem toNat_vregHigh (n : VReg) : (vregHigh n).toNat = (n.val >>> 5) &&& 3 := by
  rw [vregHigh, BitVec.extractLsb'_toNat]
  exact (Nat.and_two_pow_sub_one_eq_mod (n.val >>> 5) 2).symm

theorem toNat_vregBit (n : VReg) (k : Nat) : (vregBit n k).toNat = (n.val >>> k) &&& 1 := by
  rw [vregBit, BitVec.extractLsb'_toNat]
  exact (Nat.and_two_pow_sub_one_eq_mod (n.val >>> k) 1).symm

theorem vregOfVc_vregLow {n : VReg} (h : n.val < 32) : vregOfVc (vregLow n) = n :=
  Fin.ext ((vregOfVc_val _).trans (toNat_vregLow_of_lt h))

theorem vregLow_vregOfVc (f : BitVec 5) : vregLow (vregOfVc f) = f :=
  BitVec.eq_of_toNat_eq ((toNat_vregLow_of_lt (vregOfVc_lt f)).trans (vregOfVc_val f))

theorem vregOfVx128_vregLow (n : VReg) : vregOfVx128 (vregHigh n) (vregLow n) = n := by
  have hbits : vregHigh n ++ vregLow n = BitVec.ofFin (w := 7) n :=
    (BitVec.extractLsb'_append_extractLsb'_eq_extractLsb' (start₁ := 0) rfl).trans BitVec.extractLsb'_eq_self
  rw [vregOfVx128, hbits]

theorem vregLow_vregOfVx128 (hi : BitVec 2) (lo : BitVec 5) : vregLow (vregOfVx128 hi lo) = lo :=
  BitVec.extractLsb'_append_eq_right

theorem vregHigh_vregOfVx128 (hi : BitVec 2) (lo : BitVec 5) : vregHigh (vregOfVx128 hi lo) = hi :=
  BitVec.extractLsb'_append_eq_left

/-- The two single bits of `VA` are its two high bits (R44). -/
theorem vregBit_append_vregBit (n : VReg) : vregBit n 6 ++ vregBit n 5 = vregHigh n :=
  BitVec.extractLsb'_append_extractLsb'_eq_extractLsb' rfl

/-- The two high bits of an assembled `VA` are the two single bits it was assembled from (R44). -/
theorem vregBit_vregOfVx128 (aH ah : BitVec 1) (lo : BitVec 5) :
    vregBit (vregOfVx128 (aH ++ ah) lo) 6 = aH ∧ vregBit (vregOfVx128 (aH ++ ah) lo) 5 = ah := by
  rw [← append_eq_append_iff, vregBit_append_vregBit, vregHigh_vregOfVx128]

/-! ### An instruction is its format, its `Rc` and its three register numbers (R52) -/

@[simp] theorem format_ofParts (f : Format) (rc : Bool) (d a b : VReg) : (Instr.ofParts f rc d a b).format = f := by
  cases f <;> cases rc <;> rfl
@[simp] theorem rc_ofParts (f : Format) (rc : Bool) (d a b : VReg) : (Instr.ofParts f rc d a b).rc = rc := by
  cases f <;> cases rc <;> rfl
@[simp] theorem vd_ofParts (f : Format) (rc : Bool) (d a b : VReg) : (Instr.ofParts f rc d a b).vd = d := by
  cases f <;> cases rc <;> rfl
@[simp] theorem va_ofParts (f : Format) (rc : Bool) (d a b : VReg) : (Instr.ofParts f rc d a b).va = a := by
  cases f <;> cases rc <;> rfl
@[simp] theorem vb_ofParts (f : Format) (rc : Bool) (d a b : VReg) : (Instr.ofParts f rc d a b).vb = b := by
  cases f <;> cases rc <;> rfl

theorem ofParts_eta (i : Instr) : Instr.ofParts i.format i.rc i.vd i.va i.vb = i := by
  cases i <;> rfl

/-- Well-formed is: every register number in the range of the format (R49, R53). -/
theorem wf_ofParts_iff (f : Format) (rc : Bool) (d a b : VReg) :
    (Instr.ofParts f rc d a b).wf = true ↔ d.val < f.numRegs ∧ a.val < f.numRegs ∧ b.val < f.numRegs := by
  cases f with
  | vc => cases rc <;> simp [Instr.ofParts, Instr.wf, VReg.fitsVc, Format.numRegs, and_assoc]
  | vx128r => cases rc <;> simp [Instr.ofParts, Instr.wf, Format.numRegs]

/-- The word of a `VC` instruction, `Rc` as one bit (R51). -/
theorem encode_ofParts_vc (rc : Bool) (d a b : VReg) :
    encode (Instr.ofParts .vc rc d a b) =
      layoutVc Config.opcdVc (vregLow d) (vregLow a) (vregLow b) (BitVec.ofBool rc) Config.xoVc := by
  cases rc <;> rfl

/-- The word of a `VX128_R` instruction, `Rc` as one bit (R51). -/
theorem encode_ofParts_vx128r (rc : Bool) (d a b : VReg) :
    encode (Instr.ofParts .vx128r rc d a b) =
      layoutVx128 Config.opcdVx128 (vregLow d) (vregLow a) (vregLow b) (vregBit a 6) Config.xoVx128 (vregBit a 5)
        (BitVec.ofBool rc) (vregHigh d) (vregHigh b) := by
  cases rc <;> rfl

/-- The instruction read by the table of format `VC` (R41, R43, R45). -/
theorem decodeVc_eq_ofParts (w : Word) :
    decodeVc w = Instr.ofParts .vc (field w 21 1 = 1#1) (vregOfVc (field w 6 5)) (vregOfVc (field w 11 5))
      (vregOfVc (field w 16 5)) := by
  unfold decodeVc
  split <;> simp [*, Instr.ofParts]

/-- The instruction read by the table of format `VX128_R` (R42, R44, R45). -/
theorem decodeVx128_eq_ofParts (w : Word) :
    decodeVx128 w = Instr.ofParts .vx128r (field w 27 1 = 1#1) (vregOfVx128 (field w 28 2) (field w 6 5))
      (vregOfVx128 (field w 21 1 ++ field w 26 1) (field w 11 5)) (vregOfVx128 (field w 30 2) (field w 16 5)) := by
  unfold decodeVx128
  split <;> simp [*, Instr.ofParts]

end Sys2Proof
end

section
/-! PROOFS. Decode and encode are inverse (30_encoding.md R47 to R51). -/

namespace Sys2Proof

/-! ### What decode can answer (R48) -/

theorem decodeWord_of_vc {w : Word} (hop : field w 0 6 = Config.opcdVc) (hxo : field w 22 10 = Config.xoVc) :
    decodeWord w = .ok (decodeVc w) :=
  if_pos ((and_formatMaskVc_eq_iff w).mpr ⟨hop, hxo⟩)

theorem decodeWord_of_vx128 {w : Word} (hop : field w 0 6 = Config.opcdVx128) (hxo : field w 22 4 = Config.xoVx128) :
    decodeWord w = .ok (decodeVx128 w) := by
  have hvc : ¬ w &&& 0xFC0003FF#32 = 0x10000086#32 := fun h =>
    opcdVx128_ne_opcdVc (hop ▸ ((and_formatMaskVc_eq_iff w).mp h).1)
  exact (if_neg hvc).trans (if_pos ((and_formatMaskVx128_eq_iff w).mpr ⟨hop, hxo⟩))

/-- Everything decode can answer, with what it says of the fixed fields. -/
theorem decodeWord_ok_cases {w : Word} {i : Instr} (h : decodeWord w = .ok i) :
    (field w 0 6 = Config.opcdVc ∧ field w 22 10 = Config.xoVc ∧ i = decodeVc w) ∨
      (field w 0 6 = Config.opcdVx128 ∧ field w 22 4 = Config.xoVx128 ∧ i = decodeVx128 w) := by
  unfold decodeWord at h
  split_ifs at h with hvc hvx <;> cases h
  · obtain ⟨hop, hxo⟩ := (and_formatMaskVc_eq_iff w).mp hvc
    exact .inl ⟨hop, hxo, rfl⟩
  · obtain ⟨hop, hxo⟩ := (and_formatMaskVx128_eq_iff w).mp hvx
    exact .inr ⟨hop, hxo, rfl⟩

/-- The words of format `VC` are those with its fixed fields. -/
theorem exists_decodeWord_vc_iff (w : Word) :
    (∃ i, decodeWord w = .ok i ∧ i.format = .vc) ↔ field w 0 6 = Config.opcdVc ∧ field w 22 10 = Config.xoVc := by
  refine ⟨fun ⟨i, hi, hf⟩ => ?_, fun ⟨hop, hxo⟩ => ⟨_, decodeWord_of_vc hop hxo, format_decodeVc w⟩⟩
  rcases decodeWord_ok_cases hi with ⟨hop, hxo, -⟩ | ⟨-, -, rfl⟩
  · exact ⟨hop, hxo⟩
  · simp at hf

/-- The words of format `VX128_R` are those with its fixed fields. -/
theorem exists_decodeWord_vx128r_iff (w : Word) :
    (∃ i, decodeWord w = .ok i ∧ i.format = .vx128r) ↔
      field w 0 6 = Config.opcdVx128 ∧ field w 22 4 = Config.xoVx128 := by
  refine ⟨fun ⟨i, hi, hf⟩ => ?_, fun ⟨hop, hxo⟩ => ⟨_, decodeWord_of_vx128 hop hxo, format_decodeVx128 w⟩⟩
  rcases decodeWord_ok_cases hi with ⟨-, -, rfl⟩ | ⟨hop, hxo, -⟩
  · simp at hf
  · exact ⟨hop, hxo⟩

/-! ### Decode and encode are inverse (R51) -/

theorem ofBool_decide_eq_one (r : BitVec 1) : BitVec.ofBool (r = 1#1) = r := by
  rcases BitVec.eq_zero_or_eq_one r with rfl | rfl <;> rfl

theorem decide_ofBool_eq_one (rc : Bool) : decide (BitVec.ofBool rc = 1#1) = rc := by
  cases rc <;> rfl

/-- A `VC` word is read back field by field: its fields are the ones it was laid out from. -/
theorem decodeWord_encode_vc (rc : Bool) {d a b : VReg} (hd : d.val < 32) (ha : a.val < 32) (hb : b.val < 32) :
    decodeWord (encode (.ofParts .vc rc d a b)) = .ok (.ofParts .vc rc d a b) := by
  obtain ⟨hop, hfd, hfa, hfb, hrc, hxo⟩ := layoutVc_inj.mp ((layoutVc_fields _).trans (encode_ofParts_vc rc d a b))
  rw [decodeWord_of_vc hop hxo, decodeVc_eq_ofParts, hfd, hfa, hfb, hrc, decide_ofBool_eq_one, vregOfVc_vregLow hd,
    vregOfVc_vregLow ha, vregOfVc_vregLow hb]

/-- A `VX128_R` word is read back field by field: its fields are the ones it was laid out from. -/
theorem decodeWord_encode_vx128r (rc : Bool) (d a b : VReg) :
    decodeWord (encode (.ofParts .vx128r rc d a b)) = .ok (.ofParts .vx128r rc d a b) := by
  obtain ⟨hop, hfd, hfa, hfb, hfaH, hxo, hfah, hrc, hfdh, hfbh⟩ :=
    layoutVx128_inj.mp ((layoutVx128_fields _).trans (encode_ofParts_vx128r rc d a b))
  rw [decodeWord_of_vx128 hop hxo, decodeVx128_eq_ofParts, hfd, hfa, hfb, hfaH, hfah, hrc, hfdh, hfbh,
    decide_ofBool_eq_one, vregBit_append_vregBit, vregOfVx128_vregLow, vregOfVx128_vregLow, vregOfVx128_vregLow]

theorem decodeWord_encode {i : Instr} (h : i.wf = true) : decodeWord (encode i) = .ok i := by
  rw [← ofParts_eta i] at h ⊢
  obtain ⟨hd, ha, hb⟩ := (wf_ofParts_iff ..).mp h
  cases hf : i.format with
  | vc =>
    rw [hf] at hd ha hb
    exact decodeWord_encode_vc _ hd ha hb
  | vx128r => exact decodeWord_encode_vx128r _ _ _ _

theorem encode_decodeVc {w : Word} (hop : field w 0 6 = Config.opcdVc) (hxo : field w 22 10 = Config.xoVc) :
    encode (decodeVc w) = w := by
  rw [decodeVc_eq_ofParts, encode_ofParts_vc, ofBool_decide_eq_one, vregLow_vregOfVc, vregLow_vregOfVc,
    vregLow_vregOfVc, ← hop, ← hxo, layoutVc_fields]

theorem encode_decodeVx128 {w : Word} (hop : field w 0 6 = Config.opcdVx128) (hxo : field w 22 4 = Config.xoVx128) :
    encode (decodeVx128 w) = w := by
  obtain ⟨haH, hah⟩ := vregBit_vregOfVx128 (field w 21 1) (field w 26 1) (field w 11 5)
  rw [decodeVx128_eq_ofParts, encode_ofParts_vx128r, ofBool_decide_eq_one, vregLow_vregOfVx128, vregLow_vregOfVx128,
    vregLow_vregOfVx128, vregHigh_vregOfVx128, vregHigh_vregOfVx128, haH, hah, ← hop, ← hxo, layoutVx128_fields]

theorem wf_decodeVc (w : Word) : (decodeVc w).wf = true := by
  rw [decodeVc_eq_ofParts]
  exact (wf_ofParts_iff ..).mpr ⟨vregOfVc_lt _, vregOfVc_lt _, vregOfVc_lt _⟩

theorem wf_decodeVx128 (w : Word) : (decodeVx128 w).wf = true := by
  rw [decodeVx128_eq_ofParts]
  exact (wf_ofParts_iff ..).mpr ⟨Fin.isLt _, Fin.isLt _, Fin.isLt _⟩

/-- A word decodes to an instruction exactly when it is that well-formed instruction's word: what the other statements on
encoding cite. -/
theorem decodeWord_eq_ok_iff {w : Word} {i : Instr} : decodeWord w = .ok i ↔ i.wf = true ∧ encode i = w := by
  refine ⟨fun h => ?_, fun ⟨hwf, hw⟩ => hw ▸ decodeWord_encode hwf⟩
  rcases decodeWord_ok_cases h with ⟨hop, hxo, rfl⟩ | ⟨hop, hxo, rfl⟩
  · exact ⟨wf_decodeVc w, encode_decodeVc hop hxo⟩
  · exact ⟨wf_decodeVx128 w, encode_decodeVx128 hop hxo⟩

/-! ### The encoder's words as numbers (R51) -/

theorem toNat_encode_vc (rc : Bool) {d a b : VReg} (hd : d.val < 32) (ha : a.val < 32) (hb : b.val < 32) :
    (encode (.ofParts .vc rc d a b)).toNat =
      (4 <<< 26) ||| (d.val <<< 21) ||| (a.val <<< 16) ||| (b.val <<< 11) ||| (rc.toNat <<< 10) ||| 134 := by
  rw [encode_ofParts_vc]
  simp only [layoutVc, BitVec.toNat_append, toNat_vregLow_of_lt, hd, ha, hb, BitVec.toNat_ofBool,
    Nat.shiftLeft_or_distrib, ← Nat.shiftLeft_add]
  rfl

theorem toNat_encode_vx128r (rc : Bool) (d a b : VReg) :
    (encode (.ofParts .vx128r rc d a b)).toNat =
      (6 <<< 26) ||| ((d.val &&& 31) <<< 21) ||| ((a.val &&& 31) <<< 16) ||| ((b.val &&& 31) <<< 11) |||
        (((a.val >>> 6) &&& 1) <<< 10) ||| (8 <<< 6) ||| (((a.val >>> 5) &&& 1) <<< 5) ||| (rc.toNat <<< 4) |||
        (((d.val >>> 5) &&& 3) <<< 2) ||| ((b.val >>> 5) &&& 3) := by
  rw [encode_ofParts_vx128r]
  simp only [layoutVx128, BitVec.toNat_append, toNat_vregLow, toNat_vregBit, toNat_vregHigh, BitVec.toNat_ofBool,
    Nat.shiftLeft_or_distrib, ← Nat.shiftLeft_add]
  rfl

/-- Settles O17: both directions are `decodeWord_eq_ok_iff`. -/
theorem encodeAndDecodeAreInverse : Obligations.EncodeAndDecodeAreInverse := by
  unfold Obligations.EncodeAndDecodeAreInverse
  exact ⟨fun _ _ _ rc hd ha hb => toNat_encode_vc rc hd ha hb, fun d a b rc => toNat_encode_vx128r rc d a b,
    fun _ => decodeWord_encode, fun _ _ => decodeWord_eq_ok_iff.mp⟩

end Sys2Proof
end

section
/-! PROOFS. The decoder's fields, its rows and the number of its words (30_encoding.md R43 to R49). -/

namespace Sys2Proof

/-- A field of one bit is 1 exactly when the shift and mask that extract it give 1. -/
theorem field_one_eq_one_iff (w : Word) (a : Nat) : field w a 1 = 1#1 ↔ (w.toNat >>> (32 - a - 1)) &&& 1 = 1 := by
  rw [← BitVec.toNat_inj, toNat_field]
  rfl

/-- A `VA` assembled from its two single bits and its low five (R44). -/
theorem vregOfVx128_append_val (aH ah : BitVec 1) (lo : BitVec 5) :
    (vregOfVx128 (aH ++ ah) lo).val = 64 * aH.toNat + 32 * ah.toNat + lo.toNat := by
  rw [vregOfVx128_val, toNat_append_eq_mul_add]
  omega

/-- Settles O14: the operands of `decodeVc` and `decodeVx128` are fields, and a field is a shift and a mask. -/
theorem decodeReadsTheTablesFields : Obligations.DecodeReadsTheTablesFields := by
  unfold Obligations.DecodeReadsTheTablesFields
  intro w
  split_ifs with hvc hvx
  · refine ⟨decodeVc w, if_pos hvc, format_decodeVc w, ?_⟩
    simp only [decodeVc_eq_ofParts, rc_ofParts, vd_ofParts, va_ofParts, vb_ofParts, vregOfVc_val, decide_eq_true_eq]
    exact ⟨field_one_eq_one_iff w 21, toNat_field w 6 5, toNat_field w 11 5, toNat_field w 16 5⟩
  · refine ⟨decodeVx128 w, (if_neg hvc).trans (if_pos hvx), format_decodeVx128 w, ?_⟩
    simp only [decodeVx128_eq_ofParts, rc_ofParts, vd_ofParts, va_ofParts, vb_ofParts, decide_eq_true_eq]
    rw [vregOfVx128_val, vregOfVx128_append_val, vregOfVx128_val]
    simp only [toNat_field]
    exact ⟨field_one_eq_one_iff w 27, rfl, rfl, rfl⟩
  · exact (if_neg hvc).trans (if_neg hvx)

/-! ### The rows of the opcode map (R47) -/

/-- The `VC` word of an instruction with a given `Rc`: the fixed fields and that `Rc`. -/
theorem exists_decodeWord_ofParts_vc_iff (w : Word) (rc : Bool) :
    (∃ d a b, decodeWord w = .ok (.ofParts .vc rc d a b)) ↔
      field w 0 6 = Config.opcdVc ∧ field w 21 1 = BitVec.ofBool rc ∧ field w 22 10 = Config.xoVc := by
  refine ⟨fun ⟨d, a, b, h⟩ => ?_, fun ⟨hop, hrc, hxo⟩ => ?_⟩
  · have hw := (decodeWord_eq_ok_iff.mp h).2
    rw [encode_ofParts_vc, ← layoutVc_fields w] at hw
    obtain ⟨hop, -, -, -, hrc, hxo⟩ := layoutVc_inj.mp hw
    exact ⟨hop.symm, hrc.symm, hxo.symm⟩
  · rw [decodeWord_of_vc hop hxo, decodeVc_eq_ofParts, hrc, decide_ofBool_eq_one]
    exact ⟨_, _, _, rfl⟩

/-- The `VX128_R` word of an instruction with a given `Rc`: the fixed fields and that `Rc`. -/
theorem exists_decodeWord_ofParts_vx128r_iff (w : Word) (rc : Bool) :
    (∃ d a b, decodeWord w = .ok (.ofParts .vx128r rc d a b)) ↔
      field w 0 6 = Config.opcdVx128 ∧ field w 22 4 = Config.xoVx128 ∧ field w 27 1 = BitVec.ofBool rc := by
  refine ⟨fun ⟨d, a, b, h⟩ => ?_, fun ⟨hop, hxo, hrc⟩ => ?_⟩
  · have hw := (decodeWord_eq_ok_iff.mp h).2
    rw [encode_ofParts_vx128r, ← layoutVx128_fields w] at hw
    obtain ⟨hop, -, -, -, -, hxo, -, hrc, -, -⟩ := layoutVx128_inj.mp hw
    exact ⟨hop.symm, hxo.symm, hrc.symm⟩
  · rw [decodeWord_of_vx128 hop hxo, decodeVx128_eq_ofParts, hrc, decide_ofBool_eq_one]
    exact ⟨_, _, _, rfl⟩

/-- A row of format `VC`: the mask that takes in `Rc` selects the instructions with that `Rc`. -/
theorem and_rowMaskVc_eq_iff (w : Word) (rc : Bool) {word : Word}
    (hword : word = layoutVc Config.opcdVc 0#5 0#5 0#5 (BitVec.ofBool rc) Config.xoVc) :
    w &&& 0xFC0007FF#32 = word ↔ ∃ d a b, decodeWord w = .ok (.ofParts .vc rc d a b) := by
  rw [and_maskVc_eq_iff w (mask := 0xFC0007FF#32) (m := BitVec.allOnes 1) rfl hword, BitVec.and_allOnes,
    exists_decodeWord_ofParts_vc_iff]

/-- A row of format `VX128_R`: the mask that takes in `Rc` selects the instructions with that `Rc`. -/
theorem and_rowMaskVx128_eq_iff (w : Word) (rc : Bool) {word : Word}
    (hword : word = layoutVx128 Config.opcdVx128 0#5 0#5 0#5 0#1 Config.xoVx128 0#1 (BitVec.ofBool rc) 0#2 0#2) :
    w &&& 0xFC0003D0#32 = word ↔ ∃ d a b, decodeWord w = .ok (.ofParts .vx128r rc d a b) := by
  rw [and_maskVx128_eq_iff w (mask := 0xFC0003D0#32) (m := BitVec.allOnes 1) rfl hword, BitVec.and_allOnes,
    exists_decodeWord_ofParts_vx128r_iff]

/-- Settles O15, row by row; the two formats differ in the primary opcode. -/
theorem maskAndMatchSelectTheInstruction : Obligations.MaskAndMatchSelectTheInstruction := by
  unfold Obligations.MaskAndMatchSelectTheInstruction
  intro w
  refine ⟨and_rowMaskVc_eq_iff w false rfl, and_rowMaskVc_eq_iff w true rfl, and_rowMaskVx128_eq_iff w false rfl,
    and_rowMaskVx128_eq_iff w true rfl, fun ⟨hvc, hvx⟩ => ?_⟩
  obtain ⟨hopVc, -⟩ := (and_formatMaskVc_eq_iff w).mp hvc
  obtain ⟨hopVx, -⟩ := (and_formatMaskVx128_eq_iff w).mp hvx
  exact opcdVx128_ne_opcdVc (hopVx.symm.trans hopVc)

/-! ### The number of words (R49) -/

theorem card_bitVec (n : Nat) : Nat.card (BitVec n) = 2 ^ n := by
  rw [Nat.card_congr BitVec.equivFin.toEquiv, Nat.card_fin]

/-- The operand fields and `Rc` of format `VC`. -/
abbrev FieldsVc := BitVec 5 × BitVec 5 × BitVec 5 × BitVec 1

/-- The pieces of the operands, and `Rc`, of format `VX128_R`, in the order of their bits. -/
abbrev FieldsVx128 := BitVec 5 × BitVec 5 × BitVec 5 × BitVec 1 × BitVec 1 × BitVec 1 × BitVec 2 × BitVec 2

/-- The `VC` word of given operand fields. -/
def wordVc : FieldsVc → Word
  | (d, a, b, rc) => layoutVc Config.opcdVc d a b rc Config.xoVc

/-- The `VX128_R` word of given operand fields. -/
def wordVx128 : FieldsVx128 → Word
  | (d, a, b, aH, ah, rc, dh, bh) => layoutVx128 Config.opcdVx128 d a b aH Config.xoVx128 ah rc dh bh

theorem wordVc_injective : Function.Injective wordVc := by
  rintro ⟨d, a, b, rc⟩ ⟨d', a', b', rc'⟩ h
  obtain ⟨-, rfl, rfl, rfl, rfl, -⟩ := layoutVc_inj.mp h
  rfl

theorem wordVx128_injective : Function.Injective wordVx128 := by
  rintro ⟨d, a, b, aH, ah, rc, dh, bh⟩ ⟨d', a', b', aH', ah', rc', dh', bh'⟩ h
  obtain ⟨-, rfl, rfl, rfl, rfl, -, rfl, rfl, rfl, rfl⟩ := layoutVx128_inj.mp h
  rfl

/-- The words of format `VC` are one for each choice of the operand fields and `Rc`. -/
theorem setOf_decodeWord_vc_eq_range : {w : Word | ∃ i, decodeWord w = .ok i ∧ i.format = .vc} = Set.range wordVc := by
  ext w
  rw [Set.mem_ofPred_eq, exists_decodeWord_vc_iff]
  constructor
  · intro ⟨hop, hxo⟩
    refine ⟨(field w 6 5, field w 11 5, field w 16 5, field w 21 1), ?_⟩
    rw [wordVc, ← hop, ← hxo, layoutVc_fields]
  · rintro ⟨⟨d, a, b, rc⟩, hw⟩
    obtain ⟨hop, -, -, -, -, hxo⟩ := layoutVc_inj.mp ((layoutVc_fields w).trans hw.symm)
    exact ⟨hop, hxo⟩

/-- The words of format `VX128_R` are one for each choice of the operand fields and `Rc`. -/
theorem setOf_decodeWord_vx128r_eq_range :
    {w : Word | ∃ i, decodeWord w = .ok i ∧ i.format = .vx128r} = Set.range wordVx128 := by
  ext w
  rw [Set.mem_ofPred_eq, exists_decodeWord_vx128r_iff]
  constructor
  · intro ⟨hop, hxo⟩
    refine ⟨(field w 6 5, field w 11 5, field w 16 5, field w 21 1, field w 26 1, field w 27 1, field w 28 2,
      field w 30 2), ?_⟩
    rw [wordVx128, ← hop, ← hxo, layoutVx128_fields]
  · rintro ⟨⟨d, a, b, aH, ah, rc, dh, bh⟩, hw⟩
    obtain ⟨hop, -, -, -, -, hxo, -⟩ := layoutVx128_inj.mp ((layoutVx128_fields w).trans hw.symm)
    exact ⟨hop, hxo⟩

/-- Settles O16: 16 free bits in format `VC`, 22 in format `VX128_R`. -/
theorem everyOperandCombinationIsOneWord : Obligations.EveryOperandCombinationIsOneWord := by
  unfold Obligations.EveryOperandCombinationIsOneWord
  refine ⟨fun i hwf => ⟨encode i, decodeWord_encode hwf⟩, ?_, ?_⟩
  · rw [setOf_decodeWord_vc_eq_range, Set.ncard_range_of_injective wordVc_injective]
    simp only [Nat.card_prod, card_bitVec]
    rfl
  · rw [setOf_decodeWord_vx128r_eq_range, Set.ncard_range_of_injective wordVx128_injective]
    simp only [Nat.card_prod, card_bitVec]
    rfl

end Sys2Proof
end

section
/-! PROOFS. The assembler and the two idioms (30_encoding.md R52 to R54). -/

namespace Sys2Proof

/-! ### The assembler (R52, R53) -/

theorem numRegs_le (f : Format) : f.numRegs ≤ 128 := by
  cases f <;> decide

/-- An operand names the register of its number, where the format has one. -/
theorem toVReg_eq_some_iff {f : Format} {t : OperandText} {n : VReg} :
    t.toVReg f = some n ↔ n.val = t.number ∧ n.val < f.numRegs := by
  have hle := numRegs_le f
  unfold OperandText.toVReg
  split_ifs <;> simp [Fin.ext_iff] <;> omega

/-- An operand names a register exactly when its number is in the range of the format. -/
theorem exists_toVReg_eq_some_iff {f : Format} {t : OperandText} :
    (∃ n, t.toVReg f = some n) ↔ t.number < f.numRegs := by
  simp only [toVReg_eq_some_iff]
  exact ⟨fun ⟨n, hn, hlt⟩ => hn ▸ hlt, fun h => ⟨⟨t.number, h.trans_le (numRegs_le f)⟩, rfl, h⟩⟩

/-- A line assembles to the word of its mnemonic with the registers its operands name. -/
theorem assemble_eq_some_iff {f : Format} {rc : Bool} {d a b : OperandText} {w : Word} :
    assemble f rc d a b = some w ↔
      ∃ d' a' b', d.toVReg f = some d' ∧ a.toVReg f = some a' ∧ b.toVReg f = some b' ∧
        encode (.ofParts f rc d' a' b') = w := by
  unfold assemble
  cases d.toVReg f <;> cases a.toVReg f <;> cases b.toVReg f <;> simp

/-- A line assembles exactly to the word that decodes to its mnemonic with the written numbers. -/
theorem assemble_eq_some_iff_decodeWord {f : Format} {rc : Bool} {d a b : OperandText} {w : Word} :
    assemble f rc d a b = some w ↔
      ∃ i, decodeWord w = .ok i ∧ i.format = f ∧ i.rc = rc ∧ i.vd.val = d.number ∧ i.va.val = a.number ∧
        i.vb.val = b.number := by
  simp only [assemble_eq_some_iff, toVReg_eq_some_iff, decodeWord_eq_ok_iff]
  constructor
  · rintro ⟨d', a', b', ⟨hd, hdf⟩, ⟨ha, haf⟩, ⟨hb, hbf⟩, hw⟩
    exact ⟨.ofParts f rc d' a' b', ⟨(wf_ofParts_iff ..).mpr ⟨hdf, haf, hbf⟩, hw⟩, by simp [hd, ha, hb]⟩
  · rintro ⟨i, ⟨hwf, hw⟩, rfl, rfl, hd, ha, hb⟩
    rw [← ofParts_eta i, wf_ofParts_iff] at hwf
    obtain ⟨hdf, haf, hbf⟩ := hwf
    exact ⟨i.vd, i.va, i.vb, ⟨hd, hdf⟩, ⟨ha, haf⟩, ⟨hb, hbf⟩, by rw [ofParts_eta, hw]⟩

/-- A line assembles exactly when its three operands name registers of the format. -/
theorem assemble_isSome_iff {f : Format} {rc : Bool} {d a b : OperandText} :
    (assemble f rc d a b).isSome = true ↔ d.number < f.numRegs ∧ a.number < f.numRegs ∧ b.number < f.numRegs := by
  simp only [Option.isSome_iff_exists, assemble_eq_some_iff, ← exists_toVReg_eq_some_iff]
  exact ⟨fun ⟨_, d', a', b', hd, ha, hb, _⟩ => ⟨⟨d', hd⟩, ⟨a', ha⟩, ⟨b', hb⟩⟩,
    fun ⟨⟨d', hd⟩, ⟨a', ha⟩, ⟨b', hb⟩⟩ => ⟨_, d', a', b', hd, ha, hb, rfl⟩⟩

/-- Settles O19: an operand names a register exactly when its number is in range, and a word is known by what it decodes
to. -/
theorem assemblerRangeAndOperands : Obligations.AssemblerRangeAndOperands := by
  unfold Obligations.AssemblerRangeAndOperands
  exact fun f rc d a b => ⟨fun w => assemble_eq_some_iff_decodeWord, assemble_isSome_iff, rfl, rfl⟩

/-- The spelling of an instruction stands for its format and `Rc` (R52). -/
theorem readMnemonic_eq_some_iff_mnemonic {m : String} {i : Instr} :
    readMnemonic m = some (i.format, i.rc) ↔ i.mnemonic = m := by
  rw [readMnemonic_eq_some i.vd i.va i.vb, ofParts_eta]

/-- A line assembles exactly to a word of an instruction that its mnemonic spells itself (R54). -/
theorem assembleLine_eq_some_iff {m : String} {d a b : OperandText} {w : Word} :
    assembleLine m d a b = some w ↔
      ∃ i, decodeWord w = .ok i ∧ i.mnemonic = m ∧ i.vd.val = d.number ∧ i.va.val = a.number ∧ i.vb.val = b.number := by
  have hline : assembleLine m d a b = some w ↔
      ∃ f rc, readMnemonic m = some (f, rc) ∧ assemble f rc d a b = some w := by
    unfold assembleLine
    rcases readMnemonic m with _ | ⟨f, rc⟩
    · simp
    · exact ⟨fun h => ⟨f, rc, rfl, h⟩, fun ⟨_, _, hm, h⟩ => by cases hm; exact h⟩
  rw [hline]
  constructor
  · rintro ⟨f, rc, hm, h⟩
    obtain ⟨i, hi, rfl, rfl, hops⟩ := assemble_eq_some_iff_decodeWord.mp h
    exact ⟨i, hi, readMnemonic_eq_some_iff_mnemonic.mp hm, hops⟩
  · rintro ⟨i, hi, hm, hops⟩
    exact ⟨i.format, i.rc, readMnemonic_eq_some_iff_mnemonic.mpr hm,
      assemble_eq_some_iff_decodeWord.mpr ⟨i, hi, rfl, rfl, hops⟩⟩

namespace Machine

/-! ### The mask and CR6 of a comparison (40_vector_compare.md R60, R61, R69) -/

theorem cmpEqLane_eq_ones_iff (a b : Word) : cmpEqLane a b = 0xFFFFFFFF#32 ↔ a = b := by
  unfold cmpEqLane
  split <;> simp [*]

theorem cmpEqLane_eq_zero_iff (a b : Word) : cmpEqLane a b = 0x00000000#32 ↔ a ≠ b := by
  unfold cmpEqLane
  split <;> simp [*]

/-- Each lane of the result is from the same lane of the two sources (R60). -/
@[simp] theorem lane_cmpEqW (a b : Vec128) (i : Fin 4) : lane (cmpEqW a b) i = cmpEqLane (lane a i) (lane b i) := by
  revert i
  simp [forall_lane, cmpEqW]

theorem lane_allOnes (i : Fin 4) : lane (BitVec.allOnes 128) i = 0xFFFFFFFF#32 := by
  revert i
  decide

/-- A register compared with itself gives all ones (R69). -/
theorem cmpEqW_self (a : Vec128) : cmpEqW a a = BitVec.allOnes 128 :=
  vec_ext_lanes fun i => by rw [lane_cmpEqW, lane_allOnes, cmpEqLane_eq_ones_iff]

/-- `lt` says that the two sources are equal (R61, R69). -/
theorem cr6FromMask_cmpEqW_lt (a b : Vec128) : (cr6FromMask (cmpEqW a b)).lt = true ↔ a = b := by
  simp only [cr6FromMask, allLanes_iff, lane_cmpEqW, cmpEqLane_eq_ones_iff]
  exact ⟨vec_ext_lanes, fun h i => h ▸ rfl⟩

/-- `eq` says that the two sources differ in every lane (R61). -/
theorem cr6FromMask_cmpEqW_eq (a b : Vec128) :
    (cr6FromMask (cmpEqW a b)).eq = true ↔ ∀ i, lane a i ≠ lane b i := by
  simp only [cr6FromMask, allLanes_iff, lane_cmpEqW, cmpEqLane_eq_zero_iff]

/-! ### The idioms (R54) -/

/-- The test idiom leaves the condition field of the two sources, whichever scratch register it writes. -/
theorem result_testIdiom_cr6 (f : Format) (d a b : VReg) (s : State) (p : Pc) :
    (result (.testIdiom f d a b) s p).cr6 = cr6FromMask (cmpEqW (s.readVr a) (s.readVr b)) := by
  rw [Instr.testIdiom, result_cr6_record s p (rc_ofParts ..), va_ofParts, vb_ofParts, compareMask]

theorem vd_testIdiom (f : Format) (d a b : VReg) : (Instr.testIdiom f d a b).vd = d :=
  vd_ofParts ..

/-- Settles O45: the assembler's mnemonics are the instructions' own, and both idioms are read off `result`. -/
theorem noPseudoInstructionAndTheTwoIdioms : Obligations.NoPseudoInstructionAndTheTwoIdioms := by
  unfold Obligations.NoPseudoInstructionAndTheTwoIdioms
  refine ⟨fun m d a b w => assembleLine_eq_some_iff, fun d a s hfits => ?_, fun f d e a b s hfits => ?_⟩
  · obtain ⟨p, hp, haddr, hwidth⟩ := Pc.next_of_fits hfits
    refine ⟨result (.allOnesIdiom d a) s p, exec_of_next hp, ?_, rfl, haddr,
      result_unchangedBut (.allOnesIdiom d a) s hwidth⟩
    exact (result_readVr_vd (.allOnesIdiom d a) s p).trans (cmpEqW_self _)
  · obtain ⟨p, hp, haddr, hwidth⟩ := Pc.next_of_fits hfits
    refine ⟨result (.testIdiom f d a b) s p, result (.testIdiom f e a b) s p, exec_of_next hp, exec_of_next hp, ?_⟩
    rw [result_testIdiom_cr6, result_testIdiom_cr6]
    have hframe := result_unchangedBut (.testIdiom f d a b) s hwidth
    rw [vd_testIdiom] at hframe
    exact ⟨rfl, cr6FromMask_cmpEqW_lt _ _, cr6FromMask_cmpEqW_eq _ _, haddr, hframe⟩

end Machine

end Sys2Proof
end

section
/-! PROOFS. The comparison and the condition field as functions of vectors (40_vector_compare.md R60, R61, R67): a lane of the
result says whether the two source lanes are equal, and CR6 summarises the lanes. -/

namespace Sys2Proof.Machine

/-! ### The comparison, lane by lane (R60, R67) -/

/-- Settles O20: `cmpEqLane` is the rule for one lane. -/
theorem compareIsLaneByLane : Obligations.CompareIsLaneByLane := by
  unfold Obligations.CompareIsLaneByLane
  exact lane_cmpEqW

theorem cmpEqLane_comm (a b : Word) : cmpEqLane a b = cmpEqLane b a := by
  simp only [cmpEqLane, eq_comm]

/-- The two sources of a comparison can change places (R67). -/
theorem cmpEqW_comm (a b : Vec128) : cmpEqW a b = cmpEqW b a :=
  vec_ext_lanes fun i => by rw [lane_cmpEqW, lane_cmpEqW, cmpEqLane_comm]

theorem lane_cmpEqW_eq_ones_iff (a b : Vec128) (i : Fin 4) :
    lane (cmpEqW a b) i = 0xFFFFFFFF#32 ↔ lane a i = lane b i := by
  rw [lane_cmpEqW, cmpEqLane_eq_ones_iff]

theorem lane_cmpEqW_eq_zero_iff (a b : Vec128) (i : Fin 4) :
    lane (cmpEqW a b) i = 0x00000000#32 ↔ lane a i ≠ lane b i := by
  rw [lane_cmpEqW, cmpEqLane_eq_zero_iff]

/-- Settles O27: a lane answers whether two words are equal, and words are equal when their bits are. -/
theorem comparisonIsPatternEquality : Obligations.ComparisonIsPatternEquality := by
  unfold Obligations.ComparisonIsPatternEquality
  refine ⟨fun a b i => ⟨?_, ?_, fun ha hb => ?_, fun ha hb => ?_⟩, cmpEqW_self, cmpEqW_comm⟩
  · rw [lane_cmpEqW_eq_ones_iff, BitVec.eq_of_getLsbD_eq_iff]
  · rw [lane_cmpEqW_eq_zero_iff, ne_eq, BitVec.eq_of_getLsbD_eq_iff]
    simp only [not_forall, exists_prop, ne_eq]
  · rw [lane_cmpEqW_eq_zero_iff, ha, hb]
    decide
  · rw [lane_cmpEqW_eq_ones_iff, ha, hb]

/-! ### The condition field (R61) -/

/-- No vector has every lane all ones and every lane zero, so a condition field made from one is legal. -/
theorem cr6FromMask_legal (r : Vec128) : (cr6FromMask r).Legal := by
  refine ⟨rfl, rfl, fun ⟨hlt, heq⟩ => ?_⟩
  have hones : lane r 0 = 0xFFFFFFFF#32 := (allLanes_iff _ r).mp hlt 0
  have hzero : lane r 0 = 0x00000000#32 := (allLanes_iff _ r).mp heq 0
  exact absurd (hones.symm.trans hzero) (by decide)

/-- The three values of a legal condition field, packed (00_scope.md R5). -/
theorem CrField.Legal.toBits_cases {c : CrField} (h : c.Legal) :
    c.toBits = 0b1000#4 ∨ c.toBits = 0b0010#4 ∨ c.toBits = 0b0000#4 := by
  obtain ⟨lt, gt, eq, so⟩ := c
  obtain ⟨rfl, rfl, hboth⟩ := h
  cases lt <;> cases eq
  · exact .inr (.inr rfl)
  · exact .inr (.inl rfl)
  · exact .inl rfl
  · exact absurd ⟨rfl, rfl⟩ hboth

theorem eq_iff_forall_lane_eq {v w : Vec128} : v = w ↔ ∀ i, lane v i = lane w i :=
  ⟨fun h _ => h ▸ rfl, vec_ext_lanes⟩

/-- Settles O21: `lt` and `eq` are the summaries of the lanes, and the field is legal. -/
theorem conditionFieldFromMask : Obligations.ConditionFieldFromMask := by
  unfold Obligations.ConditionFieldFromMask
  refine ⟨fun r => ?_, fun a b => ⟨?_, cr6FromMask_cmpEqW_eq a b⟩⟩
  · exact ⟨allLanes_iff _ r, rfl, allLanes_iff _ r, rfl, (cr6FromMask_legal r).toBits_cases⟩
  · exact (cr6FromMask_cmpEqW_lt a b).trans eq_iff_forall_lane_eq

/-- A register compared with itself is equal in every lane, so `lt` alone is set (R66). -/
theorem cr6FromMask_cmpEqW_self (a : Vec128) : cr6FromMask (cmpEqW a a) = ⟨true, false, false, false⟩ := by
  rw [cmpEqW_self]
  decide

end Sys2Proof.Machine
end

section
/-! PROOFS. The four instructions (40_vector_compare.md R62 to R66): what a completed instruction leaves, said once for all
of them in terms of its register numbers and `Rc`; the words are those of R51. -/

namespace Sys2Proof

/-- The word of a `VC` instruction, its fixed bits together and its operands after them (R62, R63). -/
theorem toNat_encode_vc_fixed_first (rc : Bool) {d a b : VReg} (hd : d.val < 32) (ha : a.val < 32) (hb : b.val < 32) :
    (encode (.ofParts .vc rc d a b)).toNat =
      ((4 <<< 26) ||| (rc.toNat <<< 10) ||| 134) ||| d.val <<< 21 ||| a.val <<< 16 ||| b.val <<< 11 := by
  rw [toNat_encode_vc rc hd ha hb]
  generalize 4 <<< 26 = opcd, d.val <<< 21 = vd, a.val <<< 16 = va, b.val <<< 11 = vb, rc.toNat <<< 10 = rcBit,
    134 = xo
  ac_rfl

namespace Machine

/-! ### What a completed instruction leaves -/

theorem exec_completes (i : Instr) {s : State} (hfits : s.pc.addr + 4 < 2 ^ s.pc.width) : ∃ t, exec i s = .next t := by
  obtain ⟨p, hp, -, -⟩ := Pc.next_of_fits hfits
  exact ⟨_, exec_of_next hp⟩

theorem exec_pc_addr {i : Instr} {s t : State} (h : exec i s = .next t) : t.pc.addr = s.pc.addr + 4 := by
  obtain ⟨p, hp, rfl⟩ := exec_next h
  exact Pc.next_addr hp

theorem exec_unchangedBut {i : Instr} {s t : State} (h : exec i s = .next t) : UnchangedBut i.vd s t := by
  obtain ⟨hframe, -⟩ := instructionFrame i s t h
  exact hframe

theorem exec_readVr_of_ne_vd {i : Instr} {s t : State} (h : exec i s = .next t) {n : VReg} (hn : n ≠ i.vd) :
    t.readVr n = s.readVr n := by
  obtain ⟨hregs, -⟩ := exec_unchangedBut h
  exact hregs n hn

theorem exec_cr6_record {i : Instr} {s t : State} (h : exec i s = .next t) (hrc : i.rc = true) :
    t.cr6 = cr6FromMask (cmpEqW (s.readVr i.va) (s.readVr i.vb)) := by
  obtain ⟨p, -, rfl⟩ := exec_next h
  exact result_cr6_record s p hrc

theorem exec_cr6_plain {i : Instr} {s t : State} (h : exec i s = .next t) (hrc : i.rc = false) : t.cr6 = s.cr6 := by
  obtain ⟨-, hcr6⟩ := instructionFrame i s t h
  exact hcr6 hrc

/-- The whole effect of a plain form, where `pc + 4` fits (R62, R64). -/
theorem exec_plain_effect {i : Instr} (hrc : i.rc = false) {s : State} (hfits : s.pc.addr + 4 < 2 ^ s.pc.width) :
    ∃ t, exec i s = .next t ∧ t.readVr i.vd = cmpEqW (s.readVr i.va) (s.readVr i.vb) ∧ t.cr6 = s.cr6 ∧
      t.pc.addr = s.pc.addr + 4 ∧ UnchangedBut i.vd s t := by
  obtain ⟨t, h⟩ := exec_completes i hfits
  exact ⟨t, h, exec_readVr_vd h, exec_cr6_plain h hrc, exec_pc_addr h, exec_unchangedBut h⟩

/-- The whole effect of a record form, where `pc + 4` fits (R63, R65). -/
theorem exec_record_effect {i : Instr} (hrc : i.rc = true) {s : State} (hfits : s.pc.addr + 4 < 2 ^ s.pc.width) :
    ∃ t, exec i s = .next t ∧ t.readVr i.vd = cmpEqW (s.readVr i.va) (s.readVr i.vb) ∧
      t.cr6 = cr6FromMask (cmpEqW (s.readVr i.va) (s.readVr i.vb)) ∧ t.pc.addr = s.pc.addr + 4 ∧
      UnchangedBut i.vd s t := by
  obtain ⟨t, h⟩ := exec_completes i hfits
  exact ⟨t, h, exec_readVr_vd h, exec_cr6_record h hrc, exec_pc_addr h, exec_unchangedBut h⟩

/-- With one register as both sources the result is all ones, whatever the register holds (R66). -/
theorem exec_readVr_vd_of_va_eq_vb {i : Instr} {s t : State} (h : exec i s = .next t) (hab : i.va = i.vb) :
    t.readVr i.vd = BitVec.allOnes 128 := by
  rw [exec_readVr_vd h, hab, cmpEqW_self]

/-- With one register as both sources a record form sets `lt` alone (R66). -/
theorem exec_cr6_record_of_va_eq_vb {i : Instr} {s t : State} (h : exec i s = .next t) (hrc : i.rc = true)
    (hab : i.va = i.vb) : t.cr6 = ⟨true, false, false, false⟩ := by
  rw [exec_cr6_record h hrc, hab, cr6FromMask_cmpEqW_self]

/-! ### The statements -/

/-- Settles O22: the effect is that of every plain form. -/
theorem vcmpequwEffect : Obligations.VcmpequwEffect := by
  unfold Obligations.VcmpequwEffect
  refine ⟨fun d a b hd ha hb => ?_, fun d a b s hfits => ?_, by decide, by decide⟩
  · exact toNat_encode_vc_fixed_first false hd ha hb
  · exact exec_plain_effect (i := .vcmpequw d a b) rfl hfits

/-- Settles O23: the effect is that of every record form; the worked example has one register as both sources. -/
theorem vcmpequwRecordEffect : Obligations.VcmpequwRecordEffect := by
  unfold Obligations.VcmpequwRecordEffect
  refine ⟨fun d a b hd ha hb => ?_, fun d a b s hfits => ?_, by decide, fun s t h => ?_⟩
  · exact toNat_encode_vc_fixed_first true hd ha hb
  · exact exec_record_effect (i := .vcmpequwRc d a b) rfl hfits
  · exact ⟨exec_readVr_vd_of_va_eq_vb h rfl, exec_cr6_record_of_va_eq_vb h rfl rfl, exec_pc_addr h⟩

/-- Settles O24: the effect is that of every plain form, and the two formats have one meaning. -/
theorem vcmpequw128Effect : Obligations.Vcmpequw128Effect := by
  unfold Obligations.Vcmpequw128Effect
  refine ⟨fun d a b => ?_, fun d a b s hfits => ?_, fun s => rfl, by decide, by decide⟩
  · have hword := toNat_encode_vx128r false d a b
    rwa [Bool.toNat_false, Nat.zero_shiftLeft, Nat.or_zero] at hword
  · exact exec_plain_effect (i := .vcmpequw128 d a b) rfl hfits

/-- Settles O25: the effect is that of every record form; the worked example differs in every lane. -/
theorem vcmpequw128RecordEffect : Obligations.Vcmpequw128RecordEffect := by
  unfold Obligations.Vcmpequw128RecordEffect
  refine ⟨fun d a b => toNat_encode_vx128r true d a b, fun d a b s hfits => ?_, by decide, fun s t ha hb h => ?_⟩
  · exact exec_record_effect (i := .vcmpequw128Rc d a b) rfl hfits
  · have hmask : cmpEqW (s.readVr 77) (s.readVr 45) = 0#128 := by
      rw [ha, hb]
      decide
    have hvd : t.readVr 100 = cmpEqW (s.readVr 77) (s.readVr 45) := exec_readVr_vd h
    have hcr6 : t.cr6 = cr6FromMask (cmpEqW (s.readVr 77) (s.readVr 45)) :=
      exec_cr6_record (i := .vcmpequw128Rc 100 77 45) h rfl
    rw [hmask] at hvd hcr6
    exact ⟨hvd, hcr6.trans (by decide), exec_pc_addr h⟩

/-- Settles O26: `VD` receives the comparison of the old sources, and a source other than `VD` is in the frame. -/
theorem aliasingUsesTheOldValues : Obligations.AliasingUsesTheOldValues := by
  unfold Obligations.AliasingUsesTheOldValues
  intro i s t h
  have hvd := exec_readVr_vd h
  refine ⟨hvd, fun hab => ?_, fun hda hab => ?_, fun hdb hba => ?_⟩
  · exact ⟨exec_readVr_vd_of_va_eq_vb h hab, fun hrc => exec_cr6_record_of_va_eq_vb h hrc hab⟩
  · exact ⟨(congrArg t.readVr hda.symm).trans hvd, exec_readVr_of_ne_vd h fun hb => hab (hb.trans hda).symm⟩
  · exact ⟨(congrArg t.readVr hdb.symm).trans hvd, exec_readVr_of_ne_vd h fun ha => hba (ha.trans hdb).symm⟩

end Machine

end Sys2Proof
end

section
/-! PROOFS. Exceptions and refusals (60_exceptions.md R80, R82): an instruction has two outcomes, told apart by whether
`pc + 4` fits, and a run that is refused goes no further. -/

namespace Sys2Proof.Machine

/-- Every outcome of an instruction, each with the condition it is met under. -/
theorem exec_cases (i : Instr) (s : State) :
    (∃ t, exec i s = .next t ∧ s.pc.addr + 4 < 2 ^ s.pc.width) ∨
      (exec i s = .refused .pcOverflow ∧ 2 ^ s.pc.width ≤ s.pc.addr + 4) := by
  rcases s.pc.next_cases with ⟨p, hp, -, -, hfits⟩ | ⟨hn, hover⟩
  · exact .inl ⟨result i s p, exec_of_next hp, hfits⟩
  · exact .inr ⟨exec_of_next_none hn, hover⟩

/-- A word that does not decode is refused where the run goes on (R82, R88 check 2). -/
theorem step_of_decode_error {s : State} {w : Word} {e : DecodeError} (hgo : s.endPc ≠ some s.pc.addr)
    (hfetch : s.fetch = some w) (hdec : decodeWord w = .error e) : step s = .refused .notInScope := by
  simp [step, State.ended, hgo, hfetch, hdec]

theorem run_succ_of_next {n : Nat} {s t : State} (h : step s = .next t) : run (n + 1) s = run n t := by
  rw [run, h]

theorem run_succ_of_refused {n : Nat} {s : State} {r : Refusal} (h : step s = .refused r) :
    run (n + 1) s = .refused r := by
  rw [run, h]

theorem run_succ_of_fault {n : Nat} {s : State} {f : Fault} (h : step s = .fault f) : run (n + 1) s = .fault f := by
  rw [run, h]

/-- A refused run is refused with the same reason at every later length (R82). -/
theorem run_add_of_refused {n : Nat} {s : State} {r : Refusal} (m : Nat) (h : run n s = .refused r) :
    run (n + m) s = .refused r := by
  induction n generalizing s with
  | zero => cases h
  | succ n ih =>
    rw [Nat.succ_add]
    cases hs : step s with
    | next t =>
      rw [run_succ_of_next hs] at h ⊢
      exact ih h
    | fault f => cases (run_succ_of_fault hs).symm.trans h
    | refused q => exact (run_succ_of_refused hs).trans ((run_succ_of_refused hs).symm.trans h)

/-! ### The statements -/

/-- Settles O32: of the two outcomes of an instruction neither is a fault, and they exclude each other. -/
theorem noInstructionFaults : Obligations.NoInstructionFaults := by
  unfold Obligations.NoInstructionFaults
  intro i s
  rcases exec_cases i s with ⟨t, h, hfits⟩ | ⟨h, hover⟩ <;> rw [h]
  · exact ⟨nofun, nofun, fun _ => hfits, fun _ => ⟨t, rfl⟩⟩
  · exact ⟨nofun, fun r hr => by cases hr; rfl, nofun, fun hfits => absurd hfits hover.not_gt⟩

/-- Settles O33: a run reaches its refused step where the run before it stands, and stays there. -/
theorem foreignWordsAreRefused : Obligations.ForeignWordsAreRefused := by
  unfold Obligations.ForeignWordsAreRefused
  refine ⟨fun s w hgo hfetch hvc hvx => ?_, fun n m s t r hrun hstep => ?_, fun n m s r => run_add_of_refused m⟩
  · have hdec : decodeWord w = .error .notInScope := (if_neg hvc).trans (if_neg hvx)
    exact step_of_decode_error hgo hfetch hdec
  · have hrefused : run (n + 1) s = .refused r := (run_add 1 hrun).trans (run_succ_of_refused hstep)
    exact run_add_of_refused m hrefused

end Sys2Proof.Machine
end

section
/-! PROOFS. Straight-line runs (70_reset_and_hazards.md R91, R94): under the launch premises the first word's step is taken,
and the state it leaves meets the launch premises for the words that remain. -/

namespace Sys2Proof.Machine

/-- A word that decodes runs as its instruction where the run goes on (R88 checks 0 to 2). -/
theorem step_of_decode_ok {s : State} {w : Word} {i : Instr} (hgo : s.endPc ≠ some s.pc.addr)
    (hfetch : s.fetch = some w) (hdec : decodeWord w = .ok i) : step s = exec i s := by
  simp [step, State.ended, hgo, hfetch, hdec]

/-- The launch premises at the first word: it is what the fetch answers, and `pc` can advance past it. -/
theorem Launched.fetch_head {s : State} {w : Word} {ws : List Word} (h : Launched s (w :: ws)) :
    s.fetch = some w ∧ s.pc.addr + 4 < 2 ^ s.pc.width := by
  have htop := h.noTopOfSpace
  rw [List.length_cons] at htop
  exact ⟨h.codeLoaded 0 w rfl, by omega⟩

/-- The first of in-scope words is passed in one step, which leaves the text and the arguments of the model alone. -/
theorem Launched.step_head {s : State} {w : Word} {ws : List Word} (h : Launched s (w :: ws))
    (hscope : ∃ i, decodeWord w = .ok i) (hgo : s.endPc ≠ some s.pc.addr) :
    ∃ d t, step s = .next t ∧ t.pc.addr = s.pc.addr + 4 ∧ UnchangedBut d s t := by
  obtain ⟨i, hdec⟩ := hscope
  obtain ⟨hfetch, hfits⟩ := h.fetch_head
  obtain ⟨t, hexec⟩ := exec_completes i hfits
  exact ⟨i.vd, t, (step_of_decode_ok hgo hfetch hdec).trans hexec, exec_pc_addr hexec, exec_unchangedBut hexec⟩

/-- One word on, with text, CodeRegion and PCW as they were, the launch premises hold for the words that remain. -/
theorem Launched.tail {s t : State} {w : Word} {ws : List Word} (h : Launched s (w :: ws))
    (hpc : t.pc.addr = s.pc.addr + 4) (hmem : t.mem = s.mem) (hcode : t.code = s.code)
    (hwidth : t.pc.width = s.pc.width) : Launched t ws where
  codeLoaded k v hv := by
    have hloaded := h.codeLoaded (k + 1) v hv
    rwa [show s.pc.addr + 4 * (k + 1) = t.pc.addr + 4 * k by omega, ← fetchAt_congr hmem hcode] at hloaded
  entryAligned := by
    have halign := h.entryAligned
    omega
  noTopOfSpace := by
    have htop := h.noTopOfSpace
    rw [List.length_cons] at htop
    rw [hwidth]
    omega

/-- Settles O42, by induction on the words: the run is the first word's step and then the run of the words that remain. -/
theorem inScopeWordsTakeOneStepEach : Obligations.InScopeWordsTakeOneStepEach := by
  unfold Obligations.InScopeWordsTakeOneStepEach
  intro prog
  induction prog with
  | nil => exact fun s _ _ _ => ⟨s, rfl, rfl, rfl, rfl, rfl, rfl, rfl⟩
  | cons w ws ih =>
    intro s hlaunched hscope hend
    obtain ⟨hw, hws⟩ := List.forall_mem_cons.mp hscope
    obtain ⟨d, t, hstep, hpc, -, -, hmem, hcode, hendPc, hwidth, hother⟩ :=
      hlaunched.step_head hw (hend 0 (Nat.zero_lt_succ _))
    have hend' : ∀ k < ws.length, t.endPc ≠ some (t.pc.addr + 4 * k) := fun k hk => by
      rw [hendPc, hpc, show s.pc.addr + 4 + 4 * k = s.pc.addr + 4 * (k + 1) by omega]
      exact hend (k + 1) (Nat.succ_lt_succ hk)
    obtain ⟨u, hrun, hupc, huwidth, humem, hucode, huendPc, huother⟩ :=
      ih t (hlaunched.tail hpc hmem hcode hwidth) hws hend'
    refine ⟨u, (run_succ_of_next hstep).trans hrun, ?_, huwidth.trans hwidth, humem.trans hmem, hucode.trans hcode,
      huendPc.trans hendPc, huother.trans hother⟩
    rw [hupc, hpc, List.length_cons]
    omega

end Sys2Proof.Machine
end

section
/-! PROOFS. What a completed step leaves (10_state.md R19, 40_vector_compare.md R69, R71): the result of a comparison is a
mask and its condition field is legal, so one effect of every step carries the invariants. -/

namespace Sys2Proof.Machine

/-- The result of a comparison is a mask (R69 (a)). -/
theorem isMask_cmpEqW (a b : Vec128) : IsMask (cmpEqW a b) := by
  intro i
  by_cases h : lane a i = lane b i
  · exact .inr ((lane_cmpEqW_eq_ones_iff a b i).mpr h)
  · exact .inl ((lane_cmpEqW_eq_zero_iff a b i).mpr h)

theorem exec_isMask_vd {i : Instr} {s t : State} (h : exec i s = .next t) : IsMask (t.readVr i.vd) :=
  exec_readVr_vd h ▸ isMask_cmpEqW _ _

theorem exec_cr6_legal {i : Instr} {s t : State} (h : exec i s = .next t) (hrc : i.rc = true) : t.cr6.Legal :=
  exec_cr6_record h hrc ▸ cr6FromMask_legal _

/-- CR6 after an instruction is the one before, in a plain form, or legal, in a record form (R69 (c)). -/
theorem exec_cr6_eq_or_legal {i : Instr} {s t : State} (h : exec i s = .next t) : t.cr6 = s.cr6 ∨ t.cr6.Legal := by
  cases hrc : i.rc with
  | false => exact .inl (exec_cr6_plain h hrc)
  | true => exact .inr (exec_cr6_legal h hrc)

/-! ### The statements -/

/-- Settles O36: the register is the destination of the instruction that the step runs. -/
theorem stepChangesOneRegisterPcAndCr6 : Obligations.StepChangesOneRegisterPcAndCr6 := by
  unfold Obligations.StepChangesOneRegisterPcAndCr6
  intro s t h
  obtain ⟨-, w, i, -, -, hexec⟩ := step_next h
  exact ⟨i.vd, exec_unchangedBut hexec, exec_isMask_vd hexec, exec_pc_addr hexec, exec_cr6_eq_or_legal hexec⟩

/-- Settles O37: memory is in the frame of a step, 4 keeps `pc` aligned, and CR6 is the legal one of before or a new one. -/
theorem stepKeepsTheInvariant : Obligations.StepKeepsTheInvariant := by
  unfold Obligations.StepKeepsTheInvariant
  intro s t ⟨hwf, halign, hlegal⟩ h
  obtain ⟨d, ⟨-, -, hmem, -⟩, -, hpc, hcr6⟩ := stepChangesOneRegisterPcAndCr6 s t h
  refine ⟨hmem ▸ hwf, by omega, ?_⟩
  rcases hcr6 with hkept | hnew
  · exact hkept ▸ hlegal
  · exact hnew

/-- Settles O40: the one register that changes receives a mask. -/
theorem stepKeepsAFileOfMasks : Obligations.StepKeepsAFileOfMasks := by
  unfold Obligations.StepKeepsAFileOfMasks
  intro s t hmasks h n
  obtain ⟨d, ⟨hothers, -⟩, hmask, -, -⟩ := stepChangesOneRegisterPcAndCr6 s t h
  by_cases hn : n = d
  · exact hn ▸ hmask
  · exact hothers n hn ▸ hmasks n

/-- Settles O41: the second instruction starts from the state the first one left. -/
theorem resultIsVisibleToTheNextInstruction : Obligations.ResultIsVisibleToTheNextInstruction := by
  unfold Obligations.ResultIsVisibleToTheNextInstruction
  intro i j s t u hfirst hsecond
  have hread := exec_readVr_vd hfirst
  refine ⟨fun hva => ?_, fun hvb => ?_, fun hrc hplain => ?_⟩
  · rw [exec_readVr_vd hsecond, hva, hread]
  · rw [exec_readVr_vd hsecond, hvb, hread]
  · exact (exec_cr6_plain hsecond hplain).trans (exec_cr6_record hfirst hrc)

end Sys2Proof.Machine
end

section
/-! PROOFS. The algebra of the comparison (40_vector_compare.md R69): laws of masks, permutations of the lanes, and what the
four forms have in common. -/

namespace Sys2Proof.Machine

/-! ### Masks (R69 (a), (e)) -/

theorem lane_zero (i : Fin 4) : lane 0#128 i = 0x00000000#32 := by
  rw [lane, BitVec.extractLsb'_zero]

/-- The lanes of a complement are the complements of the lanes. -/
theorem lane_not (v : Vec128) (i : Fin 4) : lane (~~~v) i = ~~~lane v i := by
  refine BitVec.eq_of_getLsbD_eq fun k hk => ?_
  have hbit : 96 - 32 * i.val + k < 128 := by omega
  rw [getLsbD_lane _ _ hk, BitVec.getLsbD_not, BitVec.getLsbD_not, getLsbD_lane _ _ hk, decide_eq_true hbit,
    decide_eq_true hk]

/-- Settles O28: one lane of a mask at a time, for each of its two values. -/
theorem maskLaws : Obligations.MaskLaws := by
  unfold Obligations.MaskLaws
  refine ⟨isMask_cmpEqW, fun m hm => ⟨vec_ext_lanes fun i => ?_, vec_ext_lanes fun i => ?_⟩⟩
  · rw [lane_cmpEqW, lane_allOnes]
    rcases hm i with h | h <;> rw [h] <;> decide
  · rw [lane_cmpEqW, lane_zero, lane_not]
    rcases hm i with h | h <;> rw [h] <;> decide

/-- Settles O29: the CR6 of a record form is the condition field of the comparison of its sources. -/
theorem recordFormComparesRegisters : Obligations.RecordFormComparesRegisters := by
  unfold Obligations.RecordFormComparesRegisters
  intro i s t hrc h
  refine ⟨exec_cr6_legal h hrc, ?_⟩
  rw [exec_cr6_record h hrc]
  exact ⟨cr6FromMask_cmpEqW_lt _ _, cr6FromMask_cmpEqW_eq _ _⟩

/-! ### Permutations of the lanes (R69 (f)) -/

theorem lane_permuteLanes (σ : Equiv.Perm (Fin 4)) (v : Vec128) (i : Fin 4) :
    lane (permuteLanes σ v) i = lane v (σ i) := by
  revert i
  simp [forall_lane, permuteLanes]

theorem cmpEqW_permuteLanes (σ : Equiv.Perm (Fin 4)) (a b : Vec128) :
    cmpEqW (permuteLanes σ a) (permuteLanes σ b) = permuteLanes σ (cmpEqW a b) :=
  vec_ext_lanes fun i => by simp only [lane_permuteLanes, lane_cmpEqW]

/-- Whether all lanes hold a word does not depend on their order. -/
theorem allLanes_permuteLanes (σ : Equiv.Perm (Fin 4)) (x : Word) (r : Vec128) :
    allLanes x (permuteLanes σ r) = allLanes x r := by
  rw [Bool.eq_iff_iff, allLanes_iff, allLanes_iff]
  simp only [lane_permuteLanes]
  exact σ.forall_congr_right (q := fun i => lane r i = x)

theorem cr6FromMask_permuteLanes (σ : Equiv.Perm (Fin 4)) (r : Vec128) :
    cr6FromMask (permuteLanes σ r) = cr6FromMask r := by
  simp only [cr6FromMask, allLanes_permuteLanes]

/-- Settles O30: both functions look at the lanes one by one, or at all of them in any order. -/
theorem lanePermutationCommutes : Obligations.LanePermutationCommutes := by
  unfold Obligations.LanePermutationCommutes
  intro σ a b
  rw [cmpEqW_permuteLanes, cr6FromMask_permuteLanes]
  exact ⟨rfl, rfl⟩

/-! ### The four forms (R69 (g), (h)) -/

/-- An instruction's result depends on its three register numbers, and in CR6 alone on its `Rc`. -/
theorem result_ofParts (f g : Format) (rc q : Bool) (d a b : VReg) (s : State) (p : Pc) :
    result (.ofParts f rc d a b) s p =
      { result (.ofParts g q d a b) s p with cr6 := (result (.ofParts f rc d a b) s p).cr6 } := by
  simp only [result, vd_ofParts, va_ofParts, vb_ofParts]

/-- The format plays no part in what an instruction does (R69 (h)). -/
theorem exec_ofParts_format (f g : Format) (rc : Bool) (d a b : VReg) (s : State) :
    exec (.ofParts f rc d a b) s = exec (.ofParts g rc d a b) s := by
  have hresult (p : Pc) : result (.ofParts f rc d a b) s p = result (.ofParts g rc d a b) s p := by
    simp only [result, vd_ofParts, va_ofParts, vb_ofParts, rc_ofParts]
  simp only [exec_eq, hresult]

/-- Settles O31: the record form completes where the plain form does, with a result that differs in CR6. -/
theorem formsAgreeOnTheSameOperands : Obligations.FormsAgreeOnTheSameOperands := by
  unfold Obligations.FormsAgreeOnTheSameOperands
  refine fun f g d a b s => ⟨fun rc => exec_ofParts_format f g rc d a b s, fun t h => ?_⟩
  obtain ⟨p, hp, rfl⟩ := exec_next h
  exact ⟨result (.ofParts g true d a b) s p, exec_of_next hp, result_ofParts g f true false d a b s p⟩

end Sys2Proof.Machine
end

section
/-! PROOFS. Program text and byte images (20_memory.md R31 to R34): a fetch that answers has found all of its four bytes, and
the bytes of a word read back as that word. -/

namespace Sys2Proof

/-- The bytes of a word, put together in the order of their addresses, are the word (R32). -/
theorem wordOfBytes_fields (w : Word) :
    wordOfBytes (field w 0 8) (field w 8 8) (field w 16 8) (field w 24 8) = w := by
  rw [wordOfBytes]
  iterate 3 rw [field_append_field w rfl (by decide)]
  exact BitVec.extractLsb'_eq_self

namespace Machine

/-! ### Fetch from listed bytes (R33, R34) -/

/-- Each of the four bytes of a fetched word is program text. -/
theorem exists_codeByte_of_fetchAt {s : State} {a k : Nat} {w : Word} (h : s.fetchAt a = some w) (hk : k < 4) :
    ∃ b, s.codeByte (a + k) = some b := by
  obtain ⟨-, b0, b1, b2, b3, h0, h1, h2, h3, -⟩ := fetchAt_eq_some.mp h
  interval_cases k
  · exact ⟨b0, h0⟩
  · exact ⟨b1, h1⟩
  · exact ⟨b2, h2⟩
  · exact ⟨b3, h3⟩

/-- Settles O12: a fetched word has all of its bytes listed. -/
theorem unlistedProgramTextIsNotFetched : Obligations.UnlistedProgramTextIsNotFetched := by
  unfold Obligations.UnlistedProgramTextIsNotFetched
  intro s k hgo hk hunlisted
  refine step_of_fetch_none hgo (Option.eq_none_iff_forall_ne_some.mpr fun w hw => ?_)
  obtain ⟨b, hb⟩ := exists_codeByte_of_fetchAt hw hk
  exact absurd (hunlisted.symm.trans (codeByte_eq_some.mp hb).2) nofun

/-! ### The host's load (R91 `CodeLoaded`) -/

/-- CodeRegion after a word is placed: the four addresses of the word, and what it held before. -/
theorem inCode_placeWord_iff {s : State} {a b : Nat} {w : Word} :
    (s.placeWord a w).inCode b = true ↔ (a ≤ b ∧ b < a + 4) ∨ s.inCode b = true := by
  simp [State.inCode, CodeRange.holds, Config.instrBytes]

/-- A placed byte is program text. -/
theorem codeByte_placeWord {s : State} {a k : Nat} {w : Word} {b : Byte} (h : (bytesOfWord w)[k]? = some b) :
    (s.placeWord a w).codeByte (a + k) = some b := by
  have hk : k < 4 := (List.getElem?_eq_some_iff.mp h).1
  exact codeByte_eq_some.mpr
    ⟨inCode_placeWord_iff.mpr (.inl ⟨by omega, by omega⟩), Memory.read_writeBytes_inside s.mem a (bytesOfWord w) h⟩

/-- A placed word is fetched from where it was placed. -/
theorem fetchAt_placeWord (s : State) {a : Nat} (w : Word) (h : a % 4 = 0) : (s.placeWord a w).fetchAt a = some w :=
  fetchAt_eq_some.mpr ⟨h, field w 0 8, field w 8 8, field w 16 8, field w 24 8, codeByte_placeWord (k := 0) rfl,
    codeByte_placeWord (k := 1) rfl, codeByte_placeWord (k := 2) rfl, codeByte_placeWord (k := 3) rfl,
    (wordOfBytes_fields w).symm⟩

/-- Settles O13: the load writes the word's four bytes and adds their addresses to CodeRegion. -/
theorem placedWordIsFetched : Obligations.PlacedWordIsFetched := by
  unfold Obligations.PlacedWordIsFetched
  intro s a w
  exact ⟨fetchAt_placeWord s w, fun b hb => Memory.read_writeBytes_outside s.mem (bytesOfWord w) hb,
    fun b hb => inCode_placeWord_iff.mpr (.inr hb), State.placeWord_wf a w⟩

/-! ### The byte image of a register (R31) -/

/-- Settles O3: byte `k` of lane `i` is byte `4i + k` of the register, since each cut is one of contiguous bits. -/
theorem registerImageIsBigEndian : Obligations.RegisterImageIsBigEndian := by
  unfold Obligations.RegisterImageIsBigEndian
  have himage (v : Vec128) (k : Fin 16) {j : Nat} (hj : j < 8) :
      (imageByte v k).getLsbD j = v.getLsbD (120 - 8 * k.val + j) := by
    rw [imageByte, BitVec.getLsbD_extractLsb', decide_eq_true hj, Bool.true_and]
  refine ⟨fun v k j hj => himage v k hj, fun v i k h => BitVec.eq_of_getLsbD_eq fun j hj => ?_⟩
  have hlane : 24 - 8 * k.val + j < 32 := by omega
  have hbit : 120 - 8 * (4 * i.val + k.val) + j = 96 - 32 * i.val + (24 - 8 * k.val + j) := by omega
  rw [himage v _ hj, BitVec.getLsbD_extractLsb', decide_eq_true hj, Bool.true_and, getLsbD_lane v i hlane, hbit]

end Machine

end Sys2Proof
end

section
/-! PROOFS. The checks of a step (60_exceptions.md R88), the written-out words (95_test_vectors.md §2) and the reset state. -/

namespace Sys2Proof

/-- Settles O18: each word by evaluating the decoder. -/
theorem writtenOutWordsDecode : Obligations.WrittenOutWordsDecode := by
  unfold Obligations.WrittenOutWordsDecode
  decide

/-- The bytes of one word decode as the word does. -/
theorem decodeWord_of_decodeBytes {b0 b1 b2 b3 : Byte} {rest rest' : List Byte} {i : Instr}
    (h : decodeBytes (b0 :: b1 :: b2 :: b3 :: rest) = .ok (i, rest')) :
    decodeWord (wordOfBytes b0 b1 b2 b3) = .ok i := by
  rw [decodeBytes] at h
  split at h
  · cases h
    assumption
  · cases h

namespace Machine

/-! ### The checks in order (R88) -/

theorem step_of_ended {s : State} (h : s.endPc = some s.pc.addr) : step s = .fault .runEnded := by
  simp [step, State.ended, h]

/-- Without admission there is no word (R33). -/
theorem fetch_of_not_admitted {s : State} (h : ¬ Admitted s) : s.fetch = none :=
  Option.eq_none_iff_forall_ne_some.mpr fun _ hw => h (admitted_of_fetch hw)

/-- An instruction is refused where `pc + 4` does not fit (R16). -/
theorem exec_of_overflow (i : Instr) {s : State} (h : 2 ^ s.pc.width ≤ s.pc.addr + 4) :
    exec i s = .refused .pcOverflow :=
  exec_of_next_none (Pc.next_of_overflow h)

/-- Settles O34: each check of the step under the negations of those before it. -/
theorem orderOfChecksInAStep : Obligations.OrderOfChecksInAStep := by
  unfold Obligations.OrderOfChecksInAStep
  refine fun s => ⟨step_of_ended, fun hgo => ⟨fun hadm => ?_, fun w hfetch => ⟨fun hdec => ?_, fun i hdec => ?_⟩⟩⟩
  · exact step_of_fetch_none hgo (fetch_of_not_admitted hadm)
  · exact step_of_decode_error hgo hfetch hdec
  · rw [step_of_decode_ok hgo hfetch hdec]
    refine ⟨exec_of_overflow i, fun hfits => ?_⟩
    obtain ⟨t, h⟩ := exec_completes i hfits
    exact ⟨t, h, h⟩

/-- Four bytes of program text at an aligned address are fetched as their word (R32, R33). -/
theorem fetchAt_of_bytes {s : State} {a : Nat} {b0 b1 b2 b3 : Byte} (halign : a % 4 = 0)
    (hcode : ∀ k < 4, s.inCode (a + k) = true) (h0 : s.mem.read a = some b0) (h1 : s.mem.read (a + 1) = some b1)
    (h2 : s.mem.read (a + 2) = some b2) (h3 : s.mem.read (a + 3) = some b3) :
    s.fetchAt a = some (wordOfBytes b0 b1 b2 b3) :=
  fetchAt_eq_some.mpr ⟨halign, b0, b1, b2, b3, codeByte_eq_some.mpr ⟨hcode 0 (by decide), h0⟩,
    codeByte_eq_some.mpr ⟨hcode 1 (by decide), h1⟩, codeByte_eq_some.mpr ⟨hcode 2 (by decide), h2⟩,
    codeByte_eq_some.mpr ⟨hcode 3 (by decide), h3⟩, rfl⟩

/-- Settles O35: the bytes are fetched as their word, and a decoded instruction is well-formed. -/
theorem stepRunsTheDecodedInstruction : Obligations.StepRunsTheDecodedInstruction := by
  unfold Obligations.StepRunsTheDecodedInstruction
  intro s b0 b1 b2 b3 rest i hgo halign hcode h0 h1 h2 h3 hbytes
  have hdec := decodeWord_of_decodeBytes hbytes
  obtain ⟨hwf, -⟩ := decodeWord_eq_ok_iff.mp hdec
  exact ⟨hwf, step_of_decode_ok hgo (fetchAt_of_bytes halign hcode h0 h1 h2 h3) hdec⟩

/-! ### The reset state (log 1, 2, 3, 7, 8, 9) -/

/-- Settles O38: memory is empty, `pc` is 0, and no bit of CR6 is set. -/
theorem resetMeetsTheInvariant : Obligations.ResetMeetsTheInvariant := by
  unfold Obligations.ResetMeetsTheInvariant
  exact ⟨by decide, by decide, rfl, rfl, nofun⟩

theorem readVr_reset (n : VReg) : State.reset.readVr n = 0#128 := by
  simp [State.readVr, State.reset]

/-- No byte is listed at reset, so that no word is fetched. -/
theorem fetchAt_reset (a : Nat) : State.reset.fetchAt a = none := by
  refine Option.eq_none_iff_forall_ne_some.mpr fun w hw => ?_
  obtain ⟨b, hb⟩ := exists_codeByte_of_fetchAt (k := 0) hw (by decide)
  exact absurd (codeByte_eq_some.mp hb).2 nofun

/-- Settles O39: each field holds its named value, and without text the first step is refused. -/
theorem resetHoldsNamedValuesAndNoProgram : Obligations.ResetHoldsNamedValuesAndNoProgram := by
  unfold Obligations.ResetHoldsNamedValuesAndNoProgram
  have hstep : step State.reset = .refused .fetchNotAdmitted := step_of_fetch_none nofun (fetchAt_reset _)
  exact ⟨readVr_reset, rfl, rfl, rfl, fun _ => rfl, fun _ => rfl, rfl, fun _ => ⟨rfl, rfl, rfl⟩, rfl, rfl, fetchAt_reset,
    hstep⟩

end Machine

end Sys2Proof
end

section
/-! PROOFS. Whole runs (70_reset_and_hazards.md R94, R95; 10_state.md R14, R17, R18): where a run ends, and that what no
instruction reads has no influence on it. -/

namespace Sys2Proof.Machine

/-! ### The end of a run (R95) -/

theorem exec_ne_fault (i : Instr) (s : State) (f : Fault) : exec i s ≠ .fault f := by
  obtain ⟨hfault, -, -⟩ := noInstructionFaults i s
  exact hfault f

/-- The end of the run is the only fault of a step (R80, R95). -/
theorem step_fault_iff {s : State} : (∃ f, step s = .fault f) ↔ s.endPc = some s.pc.addr := by
  refine ⟨fun ⟨f, h⟩ => ?_, fun h => ⟨_, step_of_ended h⟩⟩
  by_contra hgo
  cases hfetch : s.fetch with
  | none => cases (step_of_fetch_none hgo hfetch).symm.trans h
  | some w =>
    cases hdec : decodeWord w with
    | error e => cases (step_of_decode_error hgo hfetch hdec).symm.trans h
    | ok i => exact exec_ne_fault i s f ((step_of_decode_ok hgo hfetch hdec).symm.trans h)

/-- The launch premises hold for the first words of a program. -/
theorem Launched.take {s : State} {prog : List Word} (h : Launched s prog) (k : Nat) : Launched s (prog.take k) where
  codeLoaded j w hj := by
    rw [List.getElem?_take] at hj
    split_ifs at hj
    exact h.codeLoaded j w hj
  entryAligned := h.entryAligned
  noTopOfSpace := by
    have hle := List.length_take_le' k prog
    have htop := h.noTopOfSpace
    omega

/-- Before the end after its last word a program in scope takes one step for each word, and `end_pc` stays. -/
theorem Launched.run_of_le {s : State} {prog : List Word} (h : Launched s prog) (hscope : AllInScope prog)
    (hend : s.endPc = some (s.pc.addr + 4 * prog.length)) {k : Nat} (hk : k ≤ prog.length) :
    ∃ t, run k s = .next t ∧ t.pc.addr = s.pc.addr + 4 * k ∧ t.endPc = s.endPc := by
  have hlen : (prog.take k).length = k := List.length_take_of_le hk
  have hgo : ∀ j < (prog.take k).length, s.endPc ≠ some (s.pc.addr + 4 * j) := by
    intro j hj hat
    have heq := Option.some.inj (hend.symm.trans hat)
    omega
  obtain ⟨t, hrun, hpc, -, -, -, hendPc, -⟩ :=
    inScopeWordsTakeOneStepEach (prog.take k) s (h.take k) (fun w hw => hscope w (List.mem_of_mem_take hw)) hgo
  rw [hlen] at hrun hpc
  exact ⟨t, hrun, hpc, hendPc⟩

/-- Settles O43: the check of the end comes first, and the words before it take one step each. -/
theorem runEndsAtEndPc : Obligations.RunEndsAtEndPc := by
  unfold Obligations.RunEndsAtEndPc
  refine ⟨fun s => step_fault_iff, fun s m c h => step_of_ended h, fun prog s hlaunched hscope hend => ⟨?_, ?_⟩⟩
  · intro k hk
    obtain ⟨t, hrun, hpc, -⟩ := hlaunched.run_of_le hscope hend hk
    exact ⟨t, hrun, hpc⟩
  · obtain ⟨t, hrun, hpc, hendPc⟩ := hlaunched.run_of_le hscope hend le_rfl
    have hended : t.endPc = some t.pc.addr := by rw [hendPc, hend, hpc]
    exact (run_add 1 hrun).trans (run_succ_of_fault (step_of_ended hended))

/-! ### What no instruction reads (10_state.md R14, R17, R18) -/

/-- Two outcomes of one kind: next states that agree on what is read, or the same reason to stop. -/
inductive AgreeingOutcomes : Host.Outcome State Fault Refusal → Host.Outcome State Fault Refusal → Prop
  | next {t t' : State} (h : AgreeOnRead t t') : AgreeingOutcomes (.next t) (.next t')
  | fault (f : Fault) : AgreeingOutcomes (.fault f) (.fault f)
  | refused (r : Refusal) : AgreeingOutcomes (.refused r) (.refused r)

theorem result_agreeOnRead {s s' : State} (h : AgreeOnRead s s') (i : Instr) (p : Pc) :
    AgreeOnRead (result i s p) (result i s' p) := by
  obtain ⟨hvr, -, hmem, hcode, hendPc⟩ := h
  have hmask : compareMask i.va i.vb s' = compareMask i.va i.vb s := by
    rw [compareMask, compareMask, State.readVr_congr hvr, State.readVr_congr hvr]
  refine ⟨?_, rfl, hmem, hcode, hendPc⟩
  rw [result, result, State.writeVr, State.writeVr, hmask, hvr]

theorem exec_agreeing {s s' : State} (h : AgreeOnRead s s') (i : Instr) :
    AgreeingOutcomes (exec i s) (exec i s') := by
  have ⟨_, hpc, _⟩ := h
  rw [exec_eq, exec_eq, hpc]
  cases s.pc.next with
  | none => exact .refused _
  | some p => exact .next (result_agreeOnRead h i p)

/-- The checks of a step read `pc`, `end_pc`, memory and CodeRegion, and its instruction the vector registers. -/
theorem step_agreeing {s s' : State} (h : AgreeOnRead s s') : AgreeingOutcomes (step s) (step s') := by
  have ⟨_, hpc, hmem, hcode, hendPc⟩ := h
  have hat : s'.endPc = some s'.pc.addr ↔ s.endPc = some s.pc.addr := by rw [hpc, hendPc]
  have hword : s'.fetch = s.fetch := by rw [State.fetch, State.fetch, hpc, fetchAt_congr hmem hcode]
  by_cases hend : s.endPc = some s.pc.addr
  · rw [step_of_ended hend, step_of_ended (hat.mpr hend)]
    exact .fault _
  have hend' := mt hat.mp hend
  cases hfetch : s.fetch with
  | none =>
    rw [step_of_fetch_none hend hfetch, step_of_fetch_none hend' (hword.trans hfetch)]
    exact .refused _
  | some w =>
    cases hdec : decodeWord w with
    | error e =>
      rw [step_of_decode_error hend hfetch hdec, step_of_decode_error hend' (hword.trans hfetch) hdec]
      exact .refused _
    | ok i =>
      rw [step_of_decode_ok hend hfetch hdec, step_of_decode_ok hend' (hword.trans hfetch) hdec]
      exact exec_agreeing h i

theorem run_agreeing {s s' : State} (h : AgreeOnRead s s') (n : Nat) : AgreeingOutcomes (run n s) (run n s') := by
  induction n generalizing s s' with
  | zero => exact .next h
  | succ n ih =>
    have hstep := step_agreeing h
    rw [run, run]
    generalize step s = o, step s' = o' at hstep ⊢
    cases hstep with
    | next ht => exact ih ht
    | fault f => exact .fault f
    | refused r => exact .refused r

/-- Settles O44: agreement is kept by every step, so the runs have outcomes of one kind. -/
theorem runsDoNotDependOnUnreadState : Obligations.RunsDoNotDependOnUnreadState := by
  unfold Obligations.RunsDoNotDependOnUnreadState
  intro n s s' h
  have hrun := run_agreeing h n
  generalize run n s = o, run n s' = o' at hrun ⊢
  cases hrun with
  | next ht => exact ⟨fun t e => by cases e; exact ⟨_, rfl, ht⟩, nofun, nofun⟩
  | fault f => exact ⟨nofun, fun g e => e, nofun⟩
  | refused r => exact ⟨nofun, nofun, fun q e => e⟩

end Sys2Proof.Machine
end
